-- ==== Sys2Proof/Word.lean ====
section
/-! DEFINITION. The machine word of LS-8 (`00_scope.md` R8, R11, R12): one unsigned byte, and the reduction modulo 256
that every register and PC write applies. -/

namespace Sys2Proof

/-- Register, memory cell, PC, SP, operand byte: an unsigned 8-bit value (R8, R11). -/
abbrev Byte := BitVec 8

/-- `mod256(v)` of R11: an unbounded integer reduced into [0,256), also when it is negative (`mod256(-1) = 255`). -/
def mod256 (v : Int) : Byte := BitVec.ofInt 8 v

end Sys2Proof
end

