-- ==== Sys2Proof/Config.lean ====
section
/-! DEFINITION. The parameters of the core: those the source fixes (`00_scope.md` R8) and the record of those it leaves
open (R9). The record is plain data and stands in State, so every claim about a state covers every choice of it.
The spec leaves no value open DURING a run, so there is no free value here. -/

namespace Sys2Proof

/-- `MEMSIZE` (R8): 256 byte cells, addresses 0 to 255. -/
abbrev memSize : Nat := 256

/-- `SP_RESET` (R8). -/
def spReset : Byte := 244#8

/-- `PC_RESET` (R8). -/
def pcReset : Byte := 0#8

/-- `UNKNOWN_OPCODE_POLICY` (R9, R207): what an unknown opcode with IR[5] = 0 does. -/
inductive UnknownPolicy where
  /-- The source's behaviour: a no-op, after which the engine advances PC as the opcode's bits say. -/
  | skip
  /-- The source's recommendation: `IllegalInstruction(IR)`. -/
  | fault
deriving DecidableEq, Repr

/-- The parameters of R9 that change what a step does. -/
structure Params where
  /-- `UNKNOWN_OPCODE_POLICY` (R207). -/
  unknownPolicy : UnknownPolicy
  /-- `HAS_EXTRA_JCC` (R181): JGT, JLT and JGE are in the dispatch table. -/
  hasExtraJcc : Bool
  /-- `SP_ALIASES_R7` (R26): SP and R7 are one storage cell. -/
  spAliasesR7 : Bool
deriving DecidableEq, Repr

/-- The defaults of R9: `Skip`, no extra conditional jumps, SP is R7. -/
def Params.default : Params :=
  { unknownPolicy := .skip, hasExtraJcc := false, spAliasesR7 := true }

/-- `GPR_RESET` (R9, R43, R44) of the reset state the host runs. PRESUMED (log entry 2), unsafe: the source gives no reset
value for R0 to R6; 0 is the general LS-8 description's value, which R43 names without adopting it.
`State.resetWith` takes any other. -/
def gprResetDefault : Vector Byte 8 := Vector.replicate 8 0#8

end Sys2Proof
end

