-- ==== Sys2Proof/Machine/State.lean ====
section
/-! DEFINITION. The state of the core: the tuple `(R[0..7], PC, FL, Mem[0..255], Status, Out)` of `10_state.md`, the
separate SP cell of `SP_ALIASES_R7 = false` (R26), and the parameter record of `00_scope.md` R9. Plain data.
The latches IR, a and b hold no state between steps (R39), so they stand in the fetch's result, not here. -/

namespace Sys2Proof.Machine

/-- The fault kinds of `60_exceptions.md` R231, each with the value it records. The PC of the faulting instruction is
recorded by PC itself, which a fault leaves unchanged (R233). -/
inductive FaultKind where
  /-- Code 1: an access to an address outside [0,256). -/
  | memoryBounds (addr : Nat)
  /-- Code 2: a register access with an index outside [0,8). -/
  | registerIndex (index : Byte)
  /-- Code 3: DIV or MOD whose divisor register holds 0; the operand indices a and b. -/
  | divideByZero (a b : Byte)
  /-- Code 4: IR[5] = 1 and IR is not an ALU opcode. -/
  | unsupportedOperation (ir : Byte)
  /-- Code 5: IR[5] = 0 and IR is not in the dispatch table, under `UNKNOWN_OPCODE_POLICY = Fault`. -/
  | illegalInstruction (ir : Byte)
deriving DecidableEq, Repr

/-- `Status` (R38): `Halted` and `Faulted(kind)` are terminal. -/
inductive Status where
  | running
  | halted
  | faulted (kind : FaultKind)
deriving DecidableEq, Repr

/-- `FL` (R31): Equal, Less-than, Greater-than. No instruction reads it as a number (R35). -/
structure Flags where
  e : Bool
  l : Bool
  g : Bool
deriving DecidableEq, Repr

/-- `Mem` (R50): address and byte pairs, addresses strictly rising and below 256, no byte 0, which is what an unlisted
address reads as ("allocated zero-filled", R43). -/
abbrev Memory := List Host.Cell

/-- The state of the core. -/
structure State where
  /-- The parameters of R9; the model's own field, which no step writes (log entry 1). -/
  params : Params
  /-- R0 to R7 (R20); R7 is SP when `SP_ALIASES_R7` (R26). -/
  regs : Vector Byte 8
  /-- The separate SP cell of `SP_ALIASES_R7 = false` (R26); neither read nor written otherwise (log entry 3). -/
  spCell : Byte
  /-- PC (R28). -/
  pc : Byte
  /-- FL (R31). -/
  fl : Flags
  /-- Mem (R50). -/
  mem : Memory
  /-- Status (R38). -/
  status : Status
  /-- Out (R40): the bytes printed so far, oldest first. -/
  out : List Byte
deriving DecidableEq, Repr

/-- Why `step` has no next state. No instruction raises one of these: an instruction's fault is the next state whose
status is `Faulted(kind)` (log entry 7). -/
inductive Fault where
  /-- Raised by `step` alone, when Status = Halted: the run has ended normally and the core has no step (R200, R210).
  Safe: the core goes no further either. -/
  | runHalted
  /-- Raised by `step` alone, when Status = Faulted(kind): the run has ended in a fault and the core has no step (R200,
  R232). Safe: the core goes no further either. -/
  | runFaulted (kind : FaultKind)
deriving DecidableEq, Repr

/-- Why an instruction has no meaning here. -/
inductive Refusal where
  /-- Raised by `exec` for an instruction without a meaning in this model; no arm raises it now. Safe: the model stops. -/
  | notModelled (mnemonic : String)
deriving DecidableEq, Repr

/-- FL at reset (R34): all clear. -/
def Flags.clear : Flags := { e := false, l := false, g := false }

/-- The state right after reset (R43, R44, R260), before the program is loaded, for the parameters p and the values
`GPR_RESET` = g. R7 is 244 when it is SP; when SP is a cell of its own, that cell is 244 and R7 is `GPR_RESET[7]`. -/
def State.resetWith (p : Params) (g : Vector Byte 8) : State :=
  { params := p
    regs := if p.spAliasesR7 then g.set 7 spReset else g
    spCell := spReset
    pc := pcReset
    fl := Flags.clear
    mem := []
    status := .running
    out := [] }

/-- The state right after reset with the default parameters. R0 to R6 hold 0: PRESUMED, unsafe (log entry 2). -/
def State.reset : State := State.resetWith Params.default gprResetDefault

end Sys2Proof.Machine
end

