-- ==== Sys2Proof/Machine/Flags.lean ====
section
/-! DEFINITION. The flag computation of CMP (`40_alu.md` R125, R126: unsigned) and the conditions that the conditional
jumps read (`43_control_transfer.md` R177 to R184). No other instruction computes or reads a flag (`10_state.md` R32,
R33). -/

namespace Sys2Proof.Machine

/-- The flags CMP writes for `p = x[a]` and `q = x[b]` (R125). -/
def compareFlags (p q : Byte) : Flags :=
  if p = q then { e := true, l := false, g := false }
  else if p.toNat < q.toNat then { e := false, l := true, g := false }
  else { e := false, l := false, g := true }

/-- JEQ's condition (R177). -/
def condEq (f : Flags) : Bool := f.e

/-- JNE's condition (R178). -/
def condNe (f : Flags) : Bool := !f.e

/-- JLE's condition (R180). -/
def condLe (f : Flags) : Bool := f.l || f.e

/-- JGT's condition (R182). -/
def condGt (f : Flags) : Bool := f.g

/-- JLT's condition (R183). -/
def condLt (f : Flags) : Bool := f.l

/-- JGE's condition (R184). -/
def condGe (f : Flags) : Bool := f.g || f.e

/-- At most one flag is set (R31 "mutually exclusive", R34). -/
def Flags.exclusive (f : Flags) : Bool := !(f.e && f.l) && !(f.e && f.g) && !(f.l && f.g)

/-- FL as a byte, `0b00000LGE` (R35); only the trace shows it (R250). -/
def Flags.toByte (f : Flags) : Byte :=
  (if f.e then 0b001#8 else 0#8) ||| (if f.g then 0b010#8 else 0#8) ||| (if f.l then 0b100#8 else 0#8)

end Sys2Proof.Machine
end

