-- ==== Sys2Proof/Syntax.lean ====
section
/-! DEFINITION. The instructions: one constructor per row of the opcode table (`30_encoding.md` R76, R79). An operand is
the raw operand byte the engine fetched (R13, R75): a register operand is any value 0 to 255, because an index outside
[0,8) is a fault when the register is accessed and no masking happens (`10_state.md` R22). An operand byte that an
instruction ignores is no part of it (R23). -/

namespace Sys2Proof

/-- The 25 instructions, the 3 optional ones, and the 2 classes of unknown opcodes. -/
inductive Instr where
  /-- R101: `x[a] <- mod256(x[a] + x[b])`. -/
  | add (a b : Byte)
  /-- R103: `x[a] <- mod256(x[a] - x[b])`. -/
  | sub (a b : Byte)
  /-- R105: the low byte of the product. -/
  | mul (a b : Byte)
  /-- R107: the unsigned quotient. -/
  | div (a b : Byte)
  /-- R109: the unsigned remainder. -/
  | mod (a b : Byte)
  /-- R111. -/
  | inc (a : Byte)
  /-- R113. -/
  | dec (a : Byte)
  /-- R125: unsigned compare, the only writer of FL. -/
  | cmp (a b : Byte)
  /-- R115. -/
  | and (a b : Byte)
  /-- R121: a real complement of the destination. -/
  | not (a : Byte)
  /-- R117. -/
  | or (a b : Byte)
  /-- R119. -/
  | xor (a b : Byte)
  /-- R122: shift left by the whole value of `x[b]`. -/
  | shl (a b : Byte)
  /-- R123: logical shift right by the whole value of `x[b]`. -/
  | shr (a b : Byte)
  /-- R140. -/
  | hlt
  /-- R141: `b` is the immediate, not an index. -/
  | ldi (a imm : Byte)
  /-- R142. -/
  | prn (a : Byte)
  /-- R160. -/
  | push (a : Byte)
  /-- R162. -/
  | pop (a : Byte)
  /-- R170. -/
  | call (a : Byte)
  /-- R172. -/
  | ret
  /-- R174. -/
  | jmp (a : Byte)
  /-- R177. -/
  | jeq (a : Byte)
  /-- R178. -/
  | jne (a : Byte)
  /-- R180. -/
  | jle (a : Byte)
  /-- R182, present only with `HAS_EXTRA_JCC`. -/
  | jgt (a : Byte)
  /-- R183, present only with `HAS_EXTRA_JCC`. -/
  | jlt (a : Byte)
  /-- R184, present only with `HAS_EXTRA_JCC`. -/
  | jge (a : Byte)
  /-- R79, R100: IR[5] = 1 and IR is none of the 14 ALU opcodes. -/
  | unknownAlu (ir : Byte)
  /-- R79, R207: IR[5] = 0 and IR is not in the dispatch table. -/
  | unknownNonAlu (ir : Byte)
deriving DecidableEq, Repr

end Sys2Proof
end

