-- ==== Sys2Proof/Decode.lean ====
section
/-! DEFINITION. The opcode byte's fields (`30_encoding.md` R71), the opcode map (R76), the decoder (R78), total on any
bytes, and the encoder written from the same map. A byte that is no instruction decodes, by name, to one of the two
unknown classes of R79; fewer than the three bytes a fetch reads (R73) are rejected by name. -/

namespace Sys2Proof

/-! ## The fields of the opcode byte (R71) -/

/-- IR[7:6], the number of operand bytes (R71, R202). -/
def operandCount (ir : Byte) : Nat := (ir >>> 6).toNat

/-- IR[5]: the ALU executes the instruction (R71, R202). -/
def isAlu (ir : Byte) : Bool := ir.getLsbD 5

/-- IR[4]: the instruction sets PC itself, the engine does not advance it (R71, R202). -/
def setsPc (ir : Byte) : Bool := ir.getLsbD 4

/-- IR[3:0], the operation identifier (R71). -/
def opcodeId (ir : Byte) : Nat := (ir &&& 0x0F#8).toNat

/-! ## `OPCODE_MAP` (R76). The source states HLT, LDI and PRN; the other values are the spec's, from the general LS-8
description (PRESUMED, log entry 6). -/

def opAdd  : Byte := 0b10100000#8
def opSub  : Byte := 0b10100001#8
def opMul  : Byte := 0b10100010#8
def opDiv  : Byte := 0b10100011#8
def opMod  : Byte := 0b10100100#8
def opInc  : Byte := 0b01100101#8
def opDec  : Byte := 0b01100110#8
def opCmp  : Byte := 0b10100111#8
def opAnd  : Byte := 0b10101000#8
def opNot  : Byte := 0b01101001#8
def opOr   : Byte := 0b10101010#8
def opXor  : Byte := 0b10101011#8
def opShl  : Byte := 0b10101100#8
def opShr  : Byte := 0b10101101#8
def opHlt  : Byte := 0b00000001#8
def opLdi  : Byte := 0b10000010#8
def opPrn  : Byte := 0b01000111#8
def opPush : Byte := 0b01000101#8
def opPop  : Byte := 0b01000110#8
def opCall : Byte := 0b01010000#8
def opRet  : Byte := 0b00010001#8
def opJmp  : Byte := 0b01010100#8
def opJeq  : Byte := 0b01010101#8
def opJne  : Byte := 0b01010110#8
def opJle  : Byte := 0b01011001#8
def opJgt  : Byte := 0b01010111#8
def opJlt  : Byte := 0b01011000#8
def opJge  : Byte := 0b01011010#8

/-- One row of a decode table: the whole opcode byte (R77) and the instruction made of the bytes a and b. -/
abbrev DecodeRow := Byte × (Byte → Byte → Instr)

/-- `ALU_TABLE` of R78: the 14 ALU opcodes. -/
def aluTable : List DecodeRow :=
  [(opAdd, .add), (opSub, .sub), (opMul, .mul), (opDiv, .div), (opMod, .mod),
   (opInc, fun a _ => .inc a), (opDec, fun a _ => .dec a), (opCmp, .cmp),
   (opAnd, .and), (opNot, fun a _ => .not a), (opOr, .or), (opXor, .xor),
   (opShl, .shl), (opShr, .shr)]

/-- The part of `DISPATCH_TABLE` that every core has (R78, R204). -/
def baseDispatchTable : List DecodeRow :=
  [(opHlt, fun _ _ => .hlt), (opLdi, .ldi), (opPrn, fun a _ => .prn a),
   (opPush, fun a _ => .push a), (opPop, fun a _ => .pop a),
   (opCall, fun a _ => .call a), (opRet, fun _ _ => .ret),
   (opJmp, fun a _ => .jmp a), (opJeq, fun a _ => .jeq a), (opJne, fun a _ => .jne a),
   (opJle, fun a _ => .jle a)]

/-- The rows `HAS_EXTRA_JCC` adds (R181). -/
def extraDispatchTable : List DecodeRow :=
  [(opJgt, fun a _ => .jgt a), (opJlt, fun a _ => .jlt a), (opJge, fun a _ => .jge a)]

/-- `DISPATCH_TABLE(P)` of R78 and R206. -/
def dispatchTable (p : Params) : List DecodeRow :=
  if p.hasExtraJcc then baseDispatchTable ++ extraDispatchTable else baseDispatchTable

/-- The byte is one of the 14 ALU opcodes (R77). -/
def isAluOpcode (ir : Byte) : Bool := (aluTable.lookup ir).isSome

/-- The byte is in the dispatch table (R77, R204). -/
def isDispatchOpcode (p : Params) (ir : Byte) : Bool := ((dispatchTable p).lookup ir).isSome

/-- `decode` of R78 applied to the three fetched bytes; total, and keyed on the whole opcode byte (R77). -/
def decode (p : Params) (ir a b : Byte) : Instr :=
  if isAlu ir then
    match aluTable.lookup ir with
    | some make => make a b
    | none => .unknownAlu ir
  else
    match (dispatchTable p).lookup ir with
    | some make => make a b
    | none => .unknownNonAlu ir

/-- Why a list of bytes holds no instruction to decode. -/
inductive DecodeError where
  /-- Fewer than the three bytes that a fetch always reads (R73). -/
  | fewerThanThreeBytes
deriving DecidableEq, Repr

/-- The decoder on a list of bytes, lowest address first (R56): it reads the first three, as the fetch does (R73). -/
def decodeBytes (p : Params) : List Byte → Except DecodeError Instr
  | ir :: a :: b :: _ => .ok (decode p ir a b)
  | _ => .error .fewerThanThreeBytes

/-! ## The encoder -/

/-- The opcode byte of an instruction (R76). -/
def Instr.opcode : Instr → Byte
  | .add _ _ => opAdd
  | .sub _ _ => opSub
  | .mul _ _ => opMul
  | .div _ _ => opDiv
  | .mod _ _ => opMod
  | .inc _ => opInc
  | .dec _ => opDec
  | .cmp _ _ => opCmp
  | .and _ _ => opAnd
  | .not _ => opNot
  | .or _ _ => opOr
  | .xor _ _ => opXor
  | .shl _ _ => opShl
  | .shr _ _ => opShr
  | .hlt => opHlt
  | .ldi _ _ => opLdi
  | .prn _ => opPrn
  | .push _ => opPush
  | .pop _ => opPop
  | .call _ => opCall
  | .ret => opRet
  | .jmp _ => opJmp
  | .jeq _ => opJeq
  | .jne _ => opJne
  | .jle _ => opJle
  | .jgt _ => opJgt
  | .jlt _ => opJlt
  | .jge _ => opJge
  | .unknownAlu ir => ir
  | .unknownNonAlu ir => ir

/-- The operand bytes of an instruction, a before b (R72). An unknown opcode's following bytes mean nothing to the
core, so the term holds none of them (log entry 12). -/
def Instr.operandBytes : Instr → List Byte
  | .add a b => [a, b]
  | .sub a b => [a, b]
  | .mul a b => [a, b]
  | .div a b => [a, b]
  | .mod a b => [a, b]
  | .inc a => [a]
  | .dec a => [a]
  | .cmp a b => [a, b]
  | .and a b => [a, b]
  | .not a => [a]
  | .or a b => [a, b]
  | .xor a b => [a, b]
  | .shl a b => [a, b]
  | .shr a b => [a, b]
  | .hlt => []
  | .ldi a imm => [a, imm]
  | .prn a => [a]
  | .push a => [a]
  | .pop a => [a]
  | .call a => [a]
  | .ret => []
  | .jmp a => [a]
  | .jeq a => [a]
  | .jne a => [a]
  | .jle a => [a]
  | .jgt a => [a]
  | .jlt a => [a]
  | .jge a => [a]
  | .unknownAlu _ => []
  | .unknownNonAlu _ => []

/-- The bytes of an instruction, lowest address first (R70, R72). -/
def encode (i : Instr) : List Byte := i.opcode :: i.operandBytes

/-! ## The word form of the opcode table -/

/-- Byte k of an instruction whose bits are w, where the bits from nbits up are 0: the first byte is w[7:0]. -/
def tableWordByte (nbits w k : Nat) : Byte := BitVec.ofNat 8 ((w % 2 ^ nbits) / 2 ^ (8 * k))

/-- The three bytes a fetch reads of an instruction whose bits are w. -/
def tableWordBytes (nbits w : Nat) : List Byte :=
  [tableWordByte nbits w 0, tableWordByte nbits w 1, tableWordByte nbits w 2]

/-- The parameters under which every row of the opcode table that names an instruction is one: the optional rows
JGT, JLT and JGE are present only with `HAS_EXTRA_JCC` (R181; log entry 5). -/
def fullTableParams : Params := { Params.default with hasExtraJcc := true }

/-- The instruction the decoder reads from an instruction whose bits are w, bit 0 being the least significant bit of
the first byte, with every row of the opcode table present. -/
def decodeTableWord (nbits w : Nat) : Option Instr :=
  match decodeBytes fullTableParams (tableWordBytes nbits w) with
  | .ok i => some i
  | .error _ => none

end Sys2Proof
end

