-- ==== Sys2Proof/Machine/Ops.lean ====
section
/-! DEFINITION. The named operations over memory, PC, SP, Out and Status that the instruction rules use (`00_scope.md`
R12), the engine's advance (`44_execution_engine.md` R205), and raising a fault as ONE operation (`60_exceptions.md`
R232, R233). The core takes no trap and has no return from one (R236, R237), so nothing stands beside `raise`. -/

namespace Sys2Proof.Machine

/-! ## Memory as data -/

/-- What an address that memory does not list reads as: 0, since memory is zero-filled (R43). -/
def unlistedByte : Byte := 0#8

/-- The byte at an address. -/
def Memory.read : Memory → Nat → Byte
  | [], _ => unlistedByte
  | (k, v) :: rest, a => if k = a then v else Memory.read rest a

/-- Memory without its entries for an address. -/
def Memory.erase : Memory → Nat → Memory
  | [], _ => []
  | (k, v) :: rest, a => if k = a then Memory.erase rest a else (k, v) :: Memory.erase rest a

/-- Memory with an entry put before the first one of a higher address. -/
def Memory.insert : Memory → Nat → Byte → Memory
  | [], a, v => [(a, v)]
  | (k, w) :: rest, a, v =>
    if k < a then (k, w) :: Memory.insert rest a v else (a, v) :: (k, w) :: rest

/-- Memory with the byte v at an address; writing what an unlisted address reads as leaves no entry. -/
def Memory.write (m : Memory) (a : Nat) (v : Byte) : Memory :=
  if v = unlistedByte then Memory.erase m a else Memory.insert (Memory.erase m a) a v

/-- Every address of the list is above lo, below 256, and rising; no byte is the unlisted one. -/
def Memory.wfAbove : Nat → Memory → Bool
  | _, [] => true
  | lo, (k, v) :: rest =>
    decide (lo ≤ k) && decide (k < memSize) && decide (v ≠ unlistedByte) && Memory.wfAbove (k + 1) rest

/-- The canonical form of memory: equal memories are equal lists. -/
def Memory.wf (m : Memory) : Bool := Memory.wfAbove 0 m

/-- Memory with the bytes of a list at rising addresses from a on; bytes past the last address are dropped. -/
def Memory.place (m : Memory) (a : Nat) : List Byte → Memory
  | [] => m
  | v :: rest => Memory.place (if a < memSize then m.write a v else m) (a + 1) rest

/-! ## Plain updates of the state -/

/-- General register i. -/
def getReg (i : Fin 8) (s : State) : Byte := s.regs[i.val]

/-- `x[i] <- v` for an index that selects a register (R21). -/
def setReg (i : Fin 8) (v : Byte) (s : State) : State := { s with regs := s.regs.set i.val v }

/-- `pc <- v` (R28). -/
def setPc (v : Byte) (s : State) : State := { s with pc := v }

/-- `FL <- f`, all three flags at once (R32). -/
def setFl (f : Flags) (s : State) : State := { s with fl := f }

/-- `Status <- st` (R38). -/
def setStatus (st : Status) (s : State) : State := { s with status := st }

/-- `Mem[a] <- v` for an address in [0,256). -/
def setMem (a : Nat) (v : Byte) (s : State) : State := { s with mem := s.mem.write a v }

/-- `Output(v)` (R143): v goes to the end of Out. -/
def output (v : Byte) (s : State) : State := { s with out := s.out ++ [v] }

/-! ## The stack pointer (R26) -/

/-- SP: R7, or the separate cell when `SP_ALIASES_R7 = false`. -/
def getSp (s : State) : Byte := if s.params.spAliasesR7 then getReg 7 s else s.spCell

/-- `SP <- v`. -/
def setSp (v : Byte) (s : State) : State :=
  if s.params.spAliasesR7 then setReg 7 v s else { s with spCell := v }

/-- SP after the decrement that PUSH and CALL make (R27, R160, R170): wraps from 0 to 255. -/
def decrementedSp (s : State) : Byte := mod256 ((getSp s).toNat - 1)

/-- SP after the increment that POP and RET make (R27, R162, R172): wraps from 255 to 0. -/
def incrementedSp (s : State) : Byte := mod256 ((getSp s).toNat + 1)

/-- The address PUSH and CALL store to: the decremented SP (R52). -/
def pushAddress (s : State) : Nat := (decrementedSp s).toNat

/-! ## Bounds-checked memory access (R53): an address is the unreduced integer the rule computes -/

/-- `MemRead(addr, 1)`. -/
def memRead (addr : Nat) (s : State) : Except FaultKind Byte :=
  if addr < memSize then .ok (s.mem.read addr) else .error (.memoryBounds addr)

/-- `MemWrite(addr, 1, v)`. -/
def memWrite (addr : Nat) (v : Byte) (s : State) : Except FaultKind State :=
  if addr < memSize then .ok (setMem addr v s) else .error (.memoryBounds addr)

/-! ## The end of a step -/

/-- `raise K(info)` (R232): the step ends with `Status <- Faulted(K(info))` and every other component as it was before
the step (R233). -/
def raise (k : FaultKind) (s : State) : Host.Outcome State Fault Refusal :=
  .next (setStatus (.faulted k) s)

/-- The engine's advance (R205), from the bits of this step's IR: `pc <- mod256(pc + operandCount + 1)` unless setsPC. -/
def advance (ir : Byte) (s : State) : State :=
  if setsPc ir then s else setPc (mod256 (s.pc.toNat + operandCount ir + 1)) s

/-- Ends the execution of an instruction whose opcode is ir: a rule that raised leaves the state before the step with
the fault recorded (R233), one that did not is followed by the engine's advance (R205). -/
def complete (ir : Byte) (s : State) : Except FaultKind State → Host.Outcome State Fault Refusal
  | .error k => raise k s
  | .ok s' => .next (advance ir s')

end Sys2Proof.Machine
end

