-- ==== Sys2Proof/Machine/Operands.lean ====
section
/-! DEFINITION. The operand forms (`30_encoding.md` R75): a register index is the whole operand byte, checked when the
register is accessed and never masked (`10_state.md` R22, R23). The other two forms need no operation: LDI's immediate
is the byte itself, and an ignored byte is read by no rule. -/

namespace Sys2Proof.Machine

/-- `x[a]` read through an operand byte. -/
def readReg (a : Byte) (s : State) : Except FaultKind Byte :=
  if h : a.toNat < 8 then .ok (getReg ⟨a.toNat, h⟩ s) else .error (.registerIndex a)

/-- `x[a] <- v` through an operand byte. -/
def writeReg (a v : Byte) (s : State) : Except FaultKind State :=
  if h : a.toNat < 8 then .ok (setReg ⟨a.toNat, h⟩ v s) else .error (.registerIndex a)

/-- `if a >= 8: raise RegisterIndexError(a)`, the check that the stack and control rules write out (R160, R176). -/
def checkIndex (a : Byte) : Except FaultKind Unit :=
  if a.toNat < 8 then .ok () else .error (.registerIndex a)

/-- The operand byte that names register i. -/
def regByte (i : Fin 8) : Byte := BitVec.ofNat 8 i.val

end Sys2Proof.Machine
end

