-- ==== Sys2Proof/Machine/Alu.lean ====
section
/-! DEFINITION. The 14 ALU operations (`40_alu.md`). Each computes on unbounded integers and narrows once, at the write
(`00_scope.md` R12, `10_state.md` R21), reads operand a's register, then b's, then makes its check, then its one write
(R100, R104). None writes FL but CMP (R102). -/

namespace Sys2Proof.Machine

/-- The two-operand form `x[a] <- mod256(f(x[a], x[b]))`. -/
def aluBinary (ir : Byte) (f : Nat → Nat → Int) (a b : Byte) (s : State) : Host.Outcome State Fault Refusal :=
  complete ir s do
    let x ← readReg a s
    let y ← readReg b s
    writeReg a (mod256 (f x.toNat y.toNat)) s

/-- The one-operand form `x[a] <- mod256(f(x[a]))`; the byte b is not read (R23). -/
def aluUnary (ir : Byte) (f : Nat → Int) (a : Byte) (s : State) : Host.Outcome State Fault Refusal :=
  complete ir s do
    let x ← readReg a s
    writeReg a (mod256 (f x.toNat)) s

/-- The form of DIV and MOD: both registers are read before the divisor is checked (R107, R109, R234). -/
def aluDivide (ir : Byte) (f : Nat → Nat → Nat) (a b : Byte) (s : State) : Host.Outcome State Fault Refusal :=
  complete ir s do
    let x ← readReg a s
    let y ← readReg b s
    if y = 0#8 then .error (.divideByZero a b) else writeReg a (mod256 (f x.toNat y.toNat)) s

/-- ADD (R101). -/
def execAdd (a b : Byte) (s : State) : Host.Outcome State Fault Refusal :=
  aluBinary opAdd (fun x y => x + y) a b s

/-- SUB (R103). -/
def execSub (a b : Byte) (s : State) : Host.Outcome State Fault Refusal :=
  aluBinary opSub (fun x y => (x : Int) - y) a b s

/-- MUL (R105). -/
def execMul (a b : Byte) (s : State) : Host.Outcome State Fault Refusal :=
  aluBinary opMul (fun x y => x * y) a b s

/-- DIV (R107). -/
def execDiv (a b : Byte) (s : State) : Host.Outcome State Fault Refusal :=
  aluDivide opDiv (fun x y => x / y) a b s

/-- MOD (R109). -/
def execMod (a b : Byte) (s : State) : Host.Outcome State Fault Refusal :=
  aluDivide opMod (fun x y => x % y) a b s

/-- INC (R111). -/
def execInc (a : Byte) (s : State) : Host.Outcome State Fault Refusal :=
  aluUnary opInc (fun x => x + 1) a s

/-- DEC (R113). -/
def execDec (a : Byte) (s : State) : Host.Outcome State Fault Refusal :=
  aluUnary opDec (fun x => (x : Int) - 1) a s

/-- AND (R115). -/
def execAnd (a b : Byte) (s : State) : Host.Outcome State Fault Refusal :=
  aluBinary opAnd (fun x y => (x &&& y : Nat)) a b s

/-- OR (R117). -/
def execOr (a b : Byte) (s : State) : Host.Outcome State Fault Refusal :=
  aluBinary opOr (fun x y => (x ||| y : Nat)) a b s

/-- XOR (R119). -/
def execXor (a b : Byte) (s : State) : Host.Outcome State Fault Refusal :=
  aluBinary opXor (fun x y => (x ^^^ y : Nat)) a b s

/-- NOT (R121): the real complement `255 - x[a]`, never the no-op of an observed revision (`90_conflicts.md` C3). -/
def execNot (a : Byte) (s : State) : Host.Outcome State Fault Refusal :=
  aluUnary opNot (fun x => 255 - (x : Int)) a s

/-- SHL (R122): by the whole value of `x[b]`, never masked to 3 bits (R124). -/
def execShl (a b : Byte) (s : State) : Host.Outcome State Fault Refusal :=
  aluBinary opShl (fun x y => (x <<< y : Nat)) a b s

/-- SHR (R123): logical, by the whole value of `x[b]` (R124). -/
def execShr (a b : Byte) (s : State) : Host.Outcome State Fault Refusal :=
  aluBinary opShr (fun x y => (x >>> y : Nat)) a b s

/-- CMP (R125): writes all three flags and no register. -/
def execCmp (a b : Byte) (s : State) : Host.Outcome State Fault Refusal :=
  complete opCmp s do
    let p ← readReg a s
    let q ← readReg b s
    .ok (setFl (compareFlags p q) s)

/-- An opcode with IR[5] = 1 that is none of the 14 (R100): raised before any register is read. -/
def execUnknownAlu (ir : Byte) (s : State) : Host.Outcome State Fault Refusal :=
  complete ir s (.error (.unsupportedOperation ir))

end Sys2Proof.Machine
end

