-- ==== Sys2Proof/Machine/Control.lean ====
section
/-! DEFINITION. CALL, RET, JMP and the conditional jumps (`43_control_transfer.md`). Every one has setsPC = 1 and writes
PC itself, on the fall-through path too (R176). -/

namespace Sys2Proof.Machine

/-- The address of the instruction after a two-byte one: `mod256(pc + 2)` (R170, R176). -/
def pcAfterTwoBytes (s : State) : Byte := mod256 (s.pc.toNat + 2)

/-- CALL (R170): `x[a]` is read after SP has been decremented. R211 names a CALL to its own address as an infinite run;
here its pushes reach its own bytes within 256 steps, and the fetch sees them (R60), as R170 gives it (DEDUCED, log
entry 26). -/
def execCall (a : Byte) (s : State) : Host.Outcome State Fault Refusal :=
  complete opCall s do
    checkIndex a
    let s₁ := setSp (decrementedSp s) s
    let s₂ ← memWrite (pushAddress s) (pcAfterTwoBytes s) s₁
    let t ← readReg a s₂
    .ok (setPc t s₂)

/-- RET (R172). -/
def execRet (s : State) : Host.Outcome State Fault Refusal :=
  complete opRet s do
    let t ← memRead (getSp s).toNat s
    .ok (setSp (incrementedSp s) (setPc t s))

/-- JMP (R174). -/
def execJmp (a : Byte) (s : State) : Host.Outcome State Fault Refusal :=
  complete opJmp s do
    checkIndex a
    let t ← readReg a s
    .ok (setPc t s)

/-- The pattern of every conditional jump (R176): the index is checked whether or not the jump is taken. -/
def condJump (ir : Byte) (cond : Flags → Bool) (a : Byte) (s : State) : Host.Outcome State Fault Refusal :=
  complete ir s do
    checkIndex a
    let t ← readReg a s
    .ok (setPc (if cond s.fl then t else pcAfterTwoBytes s) s)

/-- JEQ (R177). -/
def execJeq (a : Byte) (s : State) : Host.Outcome State Fault Refusal := condJump opJeq condEq a s

/-- JNE (R178). -/
def execJne (a : Byte) (s : State) : Host.Outcome State Fault Refusal := condJump opJne condNe a s

/-- JLE (R180). PRESUMED (log entry 8): the source names JLE nowhere; the spec takes it from the general LS-8. -/
def execJle (a : Byte) (s : State) : Host.Outcome State Fault Refusal := condJump opJle condLe a s

/-- JGT (R182), reached only where `HAS_EXTRA_JCC` puts it in the dispatch table. -/
def execJgt (a : Byte) (s : State) : Host.Outcome State Fault Refusal := condJump opJgt condGt a s

/-- JLT (R183), reached only where `HAS_EXTRA_JCC` puts it in the dispatch table. -/
def execJlt (a : Byte) (s : State) : Host.Outcome State Fault Refusal := condJump opJlt condLt a s

/-- JGE (R184), reached only where `HAS_EXTRA_JCC` puts it in the dispatch table. -/
def execJge (a : Byte) (s : State) : Host.Outcome State Fault Refusal := condJump opJge condGe a s

end Sys2Proof.Machine
end

