-- ==== Sys2Proof/Machine/LoadOutputHalt.lean ====
section
/-! DEFINITION. HLT, LDI and PRN (`41_load_output_halt.md`), and the unknown non-ALU opcodes
(`44_execution_engine.md` R207). -/

namespace Sys2Proof.Machine

/-- HLT (R140): Halted, and PC still advances by 1 (R205, `90_conflicts.md` C4). -/
def execHlt (s : State) : Host.Outcome State Fault Refusal :=
  complete opHlt s (.ok (setStatus .halted s))

/-- LDI (R141): the byte b goes to `x[a]` unchanged. -/
def execLdi (a imm : Byte) (s : State) : Host.Outcome State Fault Refusal :=
  complete opLdi s (writeReg a imm s)

/-- PRN (R142): `x[a]` goes to the end of Out. -/
def execPrn (a : Byte) (s : State) : Host.Outcome State Fault Refusal :=
  complete opPrn s do
    let v ← readReg a s
    .ok (output v s)

/-- An opcode with IR[5] = 0 outside the dispatch table (R207). Under `Skip` nothing happens but the engine's advance,
and with setsPC = 1 not even that (R208). -/
def execUnknownNonAlu (ir : Byte) (s : State) : Host.Outcome State Fault Refusal :=
  match s.params.unknownPolicy with
  | .skip => complete ir s (.ok s)
  | .fault => complete ir s (.error (.illegalInstruction ir))

end Sys2Proof.Machine
end

