-- ==== Sys2Proof/Machine/Stack.lean ====
section
/-! DEFINITION. PUSH and POP (`42_stack.md`): the statements in the written order, which decides what happens when the
operand is R7 (R161). -/

namespace Sys2Proof.Machine

/-- PUSH (R160): `x[a]` is read after SP has been decremented. -/
def execPush (a : Byte) (s : State) : Host.Outcome State Fault Refusal :=
  complete opPush s do
    checkIndex a
    let s₁ := setSp (decrementedSp s) s
    let v ← readReg a s₁
    memWrite (pushAddress s) v s₁

/-- POP (R162): SP is read, for its increment, after `x[a]` has been written; the popped cell keeps its byte. -/
def execPop (a : Byte) (s : State) : Host.Outcome State Fault Refusal :=
  complete opPop s do
    checkIndex a
    let v ← memRead (getSp s).toNat s
    let s₁ ← writeReg a v s
    .ok (setSp (incrementedSp s₁) s₁)

end Sys2Proof.Machine
end

