-- ==== Sys2Proof/Machine/Dispatch.lean ====
section
/-! DEFINITION. One arm per instruction, each a direct call of its meaning. A meaning is the whole effect of the
instruction after its fetch and decode: its rule and then the engine's advance (`44_execution_engine.md` R205). -/

namespace Sys2Proof.Machine

def exec (i : Instr) (s : State) : Host.Outcome State Fault Refusal :=
  match i with
  | .add a b => Sys2Proof.Machine.execAdd a b s
  | .sub a b => Sys2Proof.Machine.execSub a b s
  | .mul a b => Sys2Proof.Machine.execMul a b s
  | .div a b => Sys2Proof.Machine.execDiv a b s
  | .mod a b => Sys2Proof.Machine.execMod a b s
  | .inc a => Sys2Proof.Machine.execInc a s
  | .dec a => Sys2Proof.Machine.execDec a s
  | .cmp a b => Sys2Proof.Machine.execCmp a b s
  | .and a b => Sys2Proof.Machine.execAnd a b s
  | .not a => Sys2Proof.Machine.execNot a s
  | .or a b => Sys2Proof.Machine.execOr a b s
  | .xor a b => Sys2Proof.Machine.execXor a b s
  | .shl a b => Sys2Proof.Machine.execShl a b s
  | .shr a b => Sys2Proof.Machine.execShr a b s
  | .hlt => Sys2Proof.Machine.execHlt s
  | .ldi a imm => Sys2Proof.Machine.execLdi a imm s
  | .prn a => Sys2Proof.Machine.execPrn a s
  | .push a => Sys2Proof.Machine.execPush a s
  | .pop a => Sys2Proof.Machine.execPop a s
  | .call a => Sys2Proof.Machine.execCall a s
  | .ret => Sys2Proof.Machine.execRet s
  | .jmp a => Sys2Proof.Machine.execJmp a s
  | .jeq a => Sys2Proof.Machine.execJeq a s
  | .jne a => Sys2Proof.Machine.execJne a s
  | .jle a => Sys2Proof.Machine.execJle a s
  | .jgt a => Sys2Proof.Machine.execJgt a s
  | .jlt a => Sys2Proof.Machine.execJlt a s
  | .jge a => Sys2Proof.Machine.execJge a s
  | .unknownAlu ir => Sys2Proof.Machine.execUnknownAlu ir s
  | .unknownNonAlu ir => Sys2Proof.Machine.execUnknownNonAlu ir s

end Sys2Proof.Machine
end

