-- ==== Sys2Proof/Machine/Fetch.lean ====
section
/-! DEFINITION. The fetch (`44_execution_engine.md` R201), and the load interface that puts a program into memory before
the first step (`70_reset_and_hazards.md` R265). -/

namespace Sys2Proof.Machine

/-- The three latches of one step (R39): they live no longer than the step. -/
structure Fetched where
  ir : Byte
  a : Byte
  b : Byte
deriving DecidableEq, Repr

/-- The fetch: three reads in order, whatever the instruction's length, at addresses that are not reduced modulo 256
(R53, R73, R201). -/
def fetch (s : State) : Except FaultKind Fetched := do
  let ir ← memRead s.pc.toNat s
  let a ← memRead (s.pc.toNat + 1) s
  let b ← memRead (s.pc.toNat + 2) s
  .ok { ir := ir, a := a, b := b }

/-- The load interface (R265): the bytes of the image from address 0 on. An image of more than 256 bytes is the loader's
`LoadError`, and the core is never started with one. -/
def loadImage (image : List Byte) (s : State) : Option State :=
  if image.length ≤ memSize then some { s with mem := s.mem.place 0 image } else none

/-- Reset, then the load (R260), for the parameters p and `GPR_RESET` = g. -/
def boot (p : Params) (g : Vector Byte 8) (image : List Byte) : Option State :=
  loadImage image (State.resetWith p g)

/-- The parameters under which the opcode ir is the instruction that `decodeTableWord` reads: an optional jump is one
only with `HAS_EXTRA_JCC` (R181; log entry 5). -/
def paramsForOpcode (ir : Byte) (p : Params) : Params :=
  if (extraDispatchTable.lookup ir).isSome then { p with hasExtraJcc := true } else p

end Sys2Proof.Machine
end

