-- ==== Sys2Proof/Machine/Step.lean ====
section
/-! DEFINITION. The step of the execution engine (`44_execution_engine.md` R200, R206), and where it fetches its next
instruction. -/

namespace Sys2Proof.Machine

/-- One step: fetch, decode, execute and advance. It exists only while Status = Running (R200). -/
def step (s : State) : Host.Outcome State Fault Refusal :=
  match s.status with
  | .halted => .fault .runHalted
  | .faulted k => .fault (.runFaulted k)
  | .running =>
    match fetch s with
    | .error k => raise k s
    | .ok w => exec (decode s.params w.ir w.a w.b) s

/-- s with an instruction whose bits are w at PC, where the next step fetches it; its bytes past address 255 are
dropped. -/
def State.withFetchWord (s : State) (nbits w : Nat) : State :=
  { s with
    params := paramsForOpcode (tableWordByte nbits w 0) s.params
    mem := s.mem.place s.pc.toNat (tableWordBytes nbits w) }

end Sys2Proof.Machine
end

