-- ==== Sys2Proof/Machine/HostView.lean ====
section
/-! DEFINITION. What the host sees of the core: how it renders Out (`41_load_output_halt.md` R143), the codes of the
fault kinds (`60_exceptions.md` R231), the optional trace (R250), which reads state and writes none, and the assembly
form of an instruction (`30_encoding.md` R82). No step uses anything of this file. -/

namespace Sys2Proof.Machine

/-- The code of a fault kind (R231). The numbers are the spec's own (its decision D12). -/
def faultCode : FaultKind → Nat
  | .memoryBounds _ => 1
  | .registerIndex _ => 2
  | .divideByZero _ _ => 3
  | .unsupportedOperation _ => 4
  | .illegalInstruction _ => 5

/-- One entry of Out as the host prints it (R143): its unsigned decimal digits and a line end, a line feed (DESIGN
CHOICE, log entry 11). -/
def renderEntry (v : Byte) : String := toString v.toNat ++ "\n"

/-- The whole output as the host prints it: the entries in order (R143). -/
def renderOut (s : State) : String := String.join (s.out.map renderEntry)

/-- What the trace shows before a step (R250). Which three addresses `bytes` shows is the model's choice (log entry 10). -/
structure Trace where
  pc : Byte
  /-- FL in the layout of R35. -/
  flags : Byte
  /-- The next three memory bytes: those at PC, PC+1 and PC+2, none past address 255 (both DESIGN CHOICE, log entry 10). -/
  bytes : List (Option Byte)
  regs : Vector Byte 8
deriving DecidableEq, Repr

/-- The byte at an address, none outside [0,256). -/
def traceByte (addr : Nat) (s : State) : Option Byte :=
  match memRead addr s with
  | .ok v => some v
  | .error _ => none

/-- The optional trace of a state (R250). That its three bytes are those at PC, PC+1 and PC+2, which the next fetch reads,
and not those after the opcode, is a DESIGN CHOICE (log entry 10). -/
def trace (s : State) : Trace :=
  { pc := s.pc
    flags := s.fl.toByte
    bytes := [traceByte s.pc.toNat s, traceByte (s.pc.toNat + 1) s, traceByte (s.pc.toNat + 2) s]
    regs := s.regs }

/-! ## Assembly (R82): a notation for programs, with no meaning to the core (the spec's decision D21) -/

/-- `R0` to `R7`; a byte of 8 or more names no register and has no assembly form. -/
def assemblyReg (a : Byte) : Option String := if a.toNat < 8 then some ("R" ++ toString a.toNat) else none

/-- `MNEMONIC Ra`. -/
def assemblyOne (mnemonic : String) (a : Byte) : Option String :=
  (assemblyReg a).map fun x => mnemonic ++ " " ++ x

/-- `MNEMONIC Ra, Rb`: the operands in the order of the encoding. -/
def assemblyTwo (mnemonic : String) (a b : Byte) : Option String :=
  match assemblyOne mnemonic a, assemblyReg b with
  | some x, some y => some (x ++ ", " ++ y)
  | _, _ => none

/-- The assembly form of an instruction; an unknown opcode has none. -/
def assembly : Instr → Option String
  | .add a b => assemblyTwo "ADD" a b
  | .sub a b => assemblyTwo "SUB" a b
  | .mul a b => assemblyTwo "MUL" a b
  | .div a b => assemblyTwo "DIV" a b
  | .mod a b => assemblyTwo "MOD" a b
  | .inc a => assemblyOne "INC" a
  | .dec a => assemblyOne "DEC" a
  | .cmp a b => assemblyTwo "CMP" a b
  | .and a b => assemblyTwo "AND" a b
  | .not a => assemblyOne "NOT" a
  | .or a b => assemblyTwo "OR" a b
  | .xor a b => assemblyTwo "XOR" a b
  | .shl a b => assemblyTwo "SHL" a b
  | .shr a b => assemblyTwo "SHR" a b
  | .hlt => some "HLT"
  | .ldi a imm => (assemblyOne "LDI" a).map fun x => x ++ ", " ++ toString imm.toNat
  | .prn a => assemblyOne "PRN" a
  | .push a => assemblyOne "PUSH" a
  | .pop a => assemblyOne "POP" a
  | .call a => assemblyOne "CALL" a
  | .ret => some "RET"
  | .jmp a => assemblyOne "JMP" a
  | .jeq a => assemblyOne "JEQ" a
  | .jne a => assemblyOne "JNE" a
  | .jle a => assemblyOne "JLE" a
  | .jgt a => assemblyOne "JGT" a
  | .jlt a => assemblyOne "JLT" a
  | .jge a => assemblyOne "JGE" a
  | .unknownAlu _ => none
  | .unknownNonAlu _ => none

end Sys2Proof.Machine
end

