-- ==== Sys2Proof/WellFormed.lean ====
section
/-! DEFINITION. Which terms of `Instr` some bytes encode, under the parameters of the core (`30_encoding.md` R79).
Register operands need no check: every operand byte is a legal encoding, and an index outside [0,8) is a fault at
execution (`10_state.md` R22). -/

namespace Sys2Proof

/-- The term is what some opcode byte decodes to:
- an optional jump only where the core has it (R181);
- an unknown ALU opcode only with IR[5] = 1 and none of the 14 opcodes (R79);
- an unknown non-ALU opcode only with IR[5] = 0 and outside the dispatch table (R79). -/
def Instr.wellFormed (p : Params) : Instr → Bool
  | .jgt _ => p.hasExtraJcc
  | .jlt _ => p.hasExtraJcc
  | .jge _ => p.hasExtraJcc
  | .unknownAlu ir => isAlu ir && !isAluOpcode ir
  | .unknownNonAlu ir => !isAlu ir && !isDispatchOpcode p ir
  | .add _ _ => true
  | .sub _ _ => true
  | .mul _ _ => true
  | .div _ _ => true
  | .mod _ _ => true
  | .inc _ => true
  | .dec _ => true
  | .cmp _ _ => true
  | .and _ _ => true
  | .not _ => true
  | .or _ _ => true
  | .xor _ _ => true
  | .shl _ _ => true
  | .shr _ _ => true
  | .hlt => true
  | .ldi _ _ => true
  | .prn _ => true
  | .push _ => true
  | .pop _ => true
  | .call _ => true
  | .ret => true
  | .jmp _ => true
  | .jeq _ => true
  | .jne _ => true
  | .jle _ => true

end Sys2Proof
end

