-- ==== Sys2Proof/Safety.lean ====
section
/-! DEFINITION. What the claims speak of: a run and how it ends (`44_execution_engine.md` R210), the invariant of every
state a run reaches, the fault that a step raises in the order of `60_exceptions.md` R234, and the register operands of
an instruction (`10_state.md` R23, R24). -/

namespace Sys2Proof.Machine

/-! ## Runs -/

/-- n steps of a run; it stops where there is no step. -/
def runSteps : Nat → State → Host.Outcome State Fault Refusal
  | 0, s => .next s
  | n + 1, s =>
    match step s with
    | .next t => runSteps n t
    | .fault r => .fault r
    | .refused r => .refused r

/-- The run from s ends as Halted in the state t (R210): the only end that is a result. -/
def HaltsIn (s t : State) : Prop := ∃ n, runSteps n s = .next t ∧ t.status = .halted

/-- The run from s ends in a fault of the kind k (R210). -/
def FaultsWith (s : State) (k : FaultKind) : Prop := ∃ n t, runSteps n s = .next t ∧ t.status = .faulted k

/-- The run from s never ends (R211): whatever the number of steps, the core still runs. -/
def NeverEnds (s : State) : Prop := ∀ n, ∃ t, runSteps n s = .next t ∧ t.status = .running

/-! ## The invariant -/

/-- Memory is in its canonical form and at most one flag is set (R31, R34). -/
def Inv (s : State) : Prop := s.mem.wf = true ∧ s.fl.exclusive = true

/-! ## Register operands -/

/-- The operand byte a, where the instruction accesses the register it names (R23, R24). -/
def regOperandA : Instr → Option Byte
  | .add a _ | .sub a _ | .mul a _ | .div a _ | .mod a _ | .cmp a _ | .and a _ | .or a _ | .xor a _ | .shl a _
  | .shr a _ | .inc a | .dec a | .not a | .ldi a _ | .prn a | .push a | .pop a | .call a | .jmp a | .jeq a | .jne a
  | .jle a | .jgt a | .jlt a | .jge a => some a
  | .hlt | .ret | .unknownAlu _ | .unknownNonAlu _ => none

/-- The operand byte b, where the instruction accesses the register it names: the two-operand ALU forms (R23, R234). -/
def regOperandB : Instr → Option Byte
  | .add _ b | .sub _ b | .mul _ b | .div _ b | .mod _ b | .cmp _ b | .and _ b | .or _ b | .xor _ b | .shl _ b
  | .shr _ b => some b
  | .inc _ | .dec _ | .not _ | .ldi _ _ | .prn _ | .push _ | .pop _ | .call _ | .jmp _ | .jeq _ | .jne _ | .jle _
  | .jgt _ | .jlt _ | .jge _ | .hlt | .ret | .unknownAlu _ | .unknownNonAlu _ => none

/-! ## The fault of a step (R231, R234) -/

/-- The instruction at PC: its three bytes decoded. -/
def instrAtPc (s : State) : Instr :=
  decode s.params (s.mem.read s.pc.toNat) (s.mem.read (s.pc.toNat + 1)) (s.mem.read (s.pc.toNat + 2))

/-- Priority 2 of R234: the opcode. -/
def opcodeFault (p : Params) : Instr → Option FaultKind
  | .unknownAlu ir => some (.unsupportedOperation ir)
  | .unknownNonAlu ir => if p.unknownPolicy = .fault then some (.illegalInstruction ir) else none
  | _ => none

/-- Priorities 3 and 4 of R234: one operand's register index. -/
def indexFault : Option Byte → Option FaultKind
  | some x => if 8 ≤ x.toNat then some (.registerIndex x) else none
  | none => none

/-- Priority 5 of R234: DIV or MOD by a register that holds 0. -/
def divisorFault (s : State) : Instr → Option FaultKind
  | .div a b | .mod a b => if s.regs[b.toNat]? = some 0#8 then some (.divideByZero a b) else none
  | _ => none

/-- The first fault of an instruction, in the order of R234 from priority 2 on. -/
def instrFault (i : Instr) (s : State) : Option FaultKind :=
  (opcodeFault s.params i).or
    ((indexFault (regOperandA i)).or ((indexFault (regOperandB i)).or (divisorFault s i)))

/-- The first fault of a step, in the order of R234. -/
def stepFault (s : State) : Option FaultKind :=
  if 254 ≤ s.pc.toNat then some (.memoryBounds 256) else instrFault (instrAtPc s) s

end Sys2Proof.Machine
end

