-- ==== Sys2Proof/Certificates/Slice0/Obligations.lean ====
section
/-! DEFINITION. The statements for the provers. A state is any value of `State`, so each statement holds under every
choice of the parameters of `00_scope.md` R9 and in states that no run reaches; the few premises are on the state and
the operands alone. `regByte i` is the operand byte that names register i, so the clauses over `regByte` and over an
operand of 8 or more together cover every operand byte. A fault is the next state whose status records it. -/

open Sys2Proof Sys2Proof.Machine

/-! ## Reset, load, step -/

/-- R43, R265: reset and load leave the values the spec gives, for every parameter choice, every `GPR_RESET` and every
image of at most 256 bytes; a longer one is refused. Three clauses are choices: which cell is SP and what R7 is without
the alias (R26, R44, the spec's decisions D6 and D7; log entry 3), the empty Out (decision D22; log entry 25), and the
parameter record, which is the model's own field (log entry 1). -/
def Obligations.BootLeavesSpecValues : Prop :=
  ∀ (p : Params) (g : Vector Byte 8) (image : List Byte),
    (image.length ≤ 256 → ∃ s, boot p g image = some s ∧
      (∀ i : Fin 8, i ≠ 7 → getReg i s = g[i.val]) ∧
      (p.spAliasesR7 = true → getReg 7 s = 244#8) ∧
      (p.spAliasesR7 = false → getReg 7 s = g[7]) ∧
      getSp s = 244#8 ∧ s.pc = 0#8 ∧ s.fl = { e := false, l := false, g := false } ∧
      (∀ a, a < 256 → s.mem.read a = (image[a]?).getD 0#8) ∧
      s.status = .running ∧ s.out = [] ∧ s.params = p) ∧
    (256 < image.length → boot p g image = none)

/-- R200, R201, R206: in a running core, the three bytes at PC are fetched and decoded, and the step is the execution of
that instruction, which includes the engine's advance. -/
def Obligations.StepRunsDecodedInstruction : Prop :=
  ∀ (s : State) (i : Instr), s.status = .running → s.pc.toNat ≤ 253 →
    decodeBytes s.params
      [s.mem.read s.pc.toNat, s.mem.read (s.pc.toNat + 1), s.mem.read (s.pc.toNat + 2)] = .ok i →
    step s = exec i s

/-- R70, R76 (log entry 6), R201: where memory at PC holds the bytes of a well-formed instruction, whatever follows
them, the step is the execution of that instruction. -/
def Obligations.StepRunsEncodedInstruction : Prop :=
  ∀ (s : State) (i : Instr), s.status = .running → s.pc.toNat ≤ 253 → i.wellFormed s.params = true →
    (∀ k v, (encode i)[k]? = some v → s.mem.read (s.pc.toNat + k) = v) →
    step s = exec i s

/-- R200: with Status = Halted or Faulted the core has no step; the model's `step` then answers a fault of its own (log
entry 7). -/
def Obligations.NoStepAfterTheEnd : Prop :=
  ∀ s : State, (s.status = .halted → step s = .fault .runHalted) ∧
    (∀ k, s.status = .faulted k → step s = .fault (.runFaulted k))

/-- R53: every access checks its address against [0,256); no access at SP, or at the SP a push decrements to, faults.
That fetch addresses are not reduced, so that fetch faults at PC 254 and 255 with address 256, is the spec's decision
D17 (log entry 15). -/
def Obligations.AccessesAreBoundsChecked : Prop :=
  ∀ (s : State) (addr : Nat) (v : Byte),
    (addr < 256 → memRead addr s = .ok (s.mem.read addr) ∧ memWrite addr v s = .ok (setMem addr v s)) ∧
    (256 ≤ addr → memRead addr s = .error (.memoryBounds addr) ∧ memWrite addr v s = .error (.memoryBounds addr)) ∧
    (s.status = .running → 254 ≤ s.pc.toNat → step s = .next (setStatus (.faulted (.memoryBounds 256)) s)) ∧
    (memRead (getSp s).toNat s = .ok (s.mem.read (getSp s).toNat)) ∧
    (memWrite (pushAddress s) v s = .ok (setMem (pushAddress s) v s))

/-- R58, R62: a read returns the byte of the most recent write to its address, and a write leaves every other address
alone. -/
def Obligations.ReadReturnsLastWrite : Prop :=
  ∀ (s : State) (a b : Nat) (v : Byte),
    (setMem a v s).mem.read b = if a = b then v else s.mem.read b

/-- R60: a byte that PUSH stores is the opcode of a later fetch at its address, with nothing in between. That the
register is read after SP's decrement is the spec's decision D9 (log entry 3). -/
def Obligations.FetchSeesPushedByte : Prop :=
  ∀ (s t : State) (i : Fin 8), pushAddress s ≤ 253 → exec (.push (regByte i)) s = .next t →
    ∃ w, fetch (setPc (decrementedSp s) t) = .ok w ∧ w.ir = getReg i (setSp (decrementedSp s) s)

/-! ## Faults -/

/-- R233 (the spec's decision D13; log entry 9): a step that faults changes nothing but Status. -/
def Obligations.FaultsArePrecise : Prop :=
  ∀ (s t : State) (k : FaultKind), s.status = .running → step s = .next t → t.status = .faulted k →
    t = setStatus (.faulted k) s

/-- R231, R234 (the spec's decision D14; log entry 9): a step of a running core raises exactly the first fault in the
order fetch, opcode, operand a's index, operand b's index, divide by zero; where there is none it ends in a state that
still runs or has halted. -/
def Obligations.FirstFaultIsRaised : Prop :=
  ∀ s : State, s.status = .running →
    (∀ k, stepFault s = some k → step s = .next (setStatus (.faulted k) s)) ∧
    (stepFault s = none → ∃ t, step s = .next t ∧ (t.status = .running ∨ t.status = .halted))

/-- R22, R23: an instruction faults on a register index exactly when it accesses a register through an operand byte of 8
or more; no index is masked. That no ignored byte is checked is the spec's decision D15 (log entry 20); that of two such
operands a's index is the one raised is R100's and R234's, by decision D14 (log entry 9). -/
def Obligations.IndexFaultsAreExact : Prop :=
  ∀ (i : Instr) (s : State) (k : Byte), s.status = .running →
    ((∃ t, exec i s = .next t ∧ t.status = .faulted (.registerIndex k)) ↔
      (regOperandA i = some k ∧ 8 ≤ k.toNat) ∨
      (∃ a, regOperandA i = some a ∧ a.toNat < 8 ∧ regOperandB i = some k ∧ 8 ≤ k.toNat))

/-! ## Encoding -/

/-- R70, R72, R76, R78: the decoder gives back every well-formed instruction, with every operand byte, from its bytes
and whatever bytes follow. The opcode map and JLE's place in it are log entries 6 and 8; an unknown opcode's term holds
no operand byte (log entry 12). -/
def Obligations.DecodeOfEncode : Prop :=
  ∀ (p : Params) (i : Instr) (rest : List Byte), i.wellFormed p = true → 2 ≤ rest.length →
    decodeBytes p (encode i ++ rest) = .ok i

/-- R77, R78: whatever the three bytes, what they decode to is well-formed and encodes to the first of them, so each
byte string has one meaning. An opcode is its whole byte (the spec's decision D23; log entry 23), and an unknown
opcode's encoding is that byte alone (log entry 12). -/
def Obligations.EncodeOfDecode : Prop :=
  ∀ (p : Params) (ir a b : Byte),
    (decode p ir a b).wellFormed p = true ∧
    ∃ rest, encode (decode p ir a b) ++ rest = [ir, a, b]

/-- R76 (its values but three are from general knowledge, log entry 6): words written out from the spec's table decode
to the instructions they stand for. -/
def Obligations.SpecWordsDecode : Prop :=
  decode Params.default 0b10100000#8 1#8 2#8 = .add 1#8 2#8 ∧
  decode Params.default 0b01101001#8 3#8 9#8 = .not 3#8 ∧
  decode Params.default 0b10100111#8 4#8 5#8 = .cmp 4#8 5#8 ∧
  decode Params.default 0b00000001#8 7#8 7#8 = .hlt ∧
  decode Params.default 0b10000010#8 0#8 8#8 = .ldi 0#8 8#8 ∧
  decode Params.default 0b01000111#8 6#8 0#8 = .prn 6#8 ∧
  decode Params.default 0b01000101#8 2#8 0#8 = .push 2#8 ∧
  decode Params.default 0b01010000#8 1#8 0#8 = .call 1#8 ∧
  decode Params.default 0b00010001#8 1#8 0#8 = .ret ∧
  decode Params.default 0b01011001#8 3#8 0#8 = .jle 3#8 ∧
  decode fullTableParams 0b01011010#8 3#8 0#8 = .jge 3#8

/-- R79: 14 ALU opcodes and 114 unknown ones; 11 opcodes in the dispatch table, 14 with `HAS_EXTRA_JCC`, and 117 and 114
unknown ones. JLE is among the 11 (log entry 8), and an opcode is its whole byte (log entry 23). -/
def Obligations.OpcodeCensus : Prop :=
  ∀ p : Params,
    (((List.range 256).map (BitVec.ofNat 8)).countP fun ir => isAlu ir && isAluOpcode ir) = 14 ∧
    (((List.range 256).map (BitVec.ofNat 8)).countP fun ir => isAlu ir && !isAluOpcode ir) = 114 ∧
    (((List.range 256).map (BitVec.ofNat 8)).countP fun ir => !isAlu ir && isDispatchOpcode p ir) =
      (if p.hasExtraJcc then 14 else 11) ∧
    (((List.range 256).map (BitVec.ofNat 8)).countP fun ir => !isAlu ir && !isDispatchOpcode p ir) =
      (if p.hasExtraJcc then 114 else 117)

/-- R73: the operand bytes that the opcode's operand count leaves out are read and then ignored. -/
def Obligations.UnusedOperandBytesAreIgnored : Prop :=
  ∀ (p : Params) (ir a b a' b' : Byte),
    (operandCount ir ≤ 1 → decode p ir a b = decode p ir a b') ∧
    (operandCount ir = 0 → decode p ir a b = decode p ir a' b')

/-! ## The engine's advance and the unknown opcodes -/

/-- R71, R205: after an instruction that does not fault, the engine has advanced PC by the operand count of the opcode's
bits plus 1, modulo 256, unless setsPC is 1; an unknown opcode with setsPC = 1 leaves PC alone. For HLT the advance is
the spec's decision D24 (log entry 17), and the bits of the other opcodes are those of R76's map (log entry 6). -/
def Obligations.AdvanceFollowsOpcodeBits : Prop :=
  ∀ (i : Instr) (s t : State), s.status = .running → exec i s = .next t → (∀ k, t.status ≠ .faulted k) →
    (setsPc i.opcode = false → t.pc.toNat = (s.pc.toNat + operandCount i.opcode + 1) % 256) ∧
    (∀ ir, i = .unknownNonAlu ir → setsPc ir = true → t.pc = s.pc)

/-- R77, R79, R100, under the opcode map of R76 (log entry 6): a byte with bit 5 set that is none of the 14 ALU opcodes
faults with `UnsupportedOperation`, whatever its operand bytes. That the whole byte decides, and not its low bits, is
the spec's decision D23 (log entry 23). -/
def Obligations.UnknownAluOpcodeFaults : Prop :=
  (∀ (ir : Byte) (s : State),
    exec (.unknownAlu ir) s = .next (setStatus (.faulted (.unsupportedOperation ir)) s)) ∧
  (∀ s : State, s.status = .running → s.pc.toNat ≤ 253 → (s.mem.read s.pc.toNat).getLsbD 5 = true →
    s.mem.read s.pc.toNat ∉ [0xA0#8, 0xA1#8, 0xA2#8, 0xA3#8, 0xA4#8, 0x65#8, 0x66#8, 0xA7#8, 0xA8#8, 0x69#8, 0xAA#8,
      0xAB#8, 0xAC#8, 0xAD#8] →
    step s = .next (setStatus (.faulted (.unsupportedOperation (s.mem.read s.pc.toNat))) s))

/-- R205, R207: an unknown opcode with bit 5 clear. Under `Skip` only PC moves, by the operand count of its bits plus 1
when bit 4 is 0, and not at all when it is 1; under `Fault` it raises `IllegalInstruction`. -/
def Obligations.UnknownNonAluFollowsPolicy : Prop :=
  ∀ (ir : Byte) (s : State),
    (s.params.unknownPolicy = .skip → ir.getLsbD 4 = false →
      exec (.unknownNonAlu ir) s = .next (setPc (s.pc + BitVec.ofNat 8 (ir.toNat / 64 + 1)) s)) ∧
    (s.params.unknownPolicy = .skip → ir.getLsbD 4 = true → exec (.unknownNonAlu ir) s = .next s) ∧
    (s.params.unknownPolicy = .fault →
      exec (.unknownNonAlu ir) s = .next (setStatus (.faulted (.illegalInstruction ir)) s))

/-- R208 (the spec's derivation from R205 and R207): under `Skip`, an unknown non-ALU opcode with setsPC = 1 is executed
forever, without halting or faulting. There are 58 such bytes, 55 with `HAS_EXTRA_JCC`, INT and IRET among them, and
JGT, JLT and JGE where they are absent. The values of these bytes, the opcode map and JLE's place in it are general
knowledge in the spec (log entries 6 and 8). -/
def Obligations.UnknownSetsPcOpcodeHangs : Prop :=
  (∀ (s : State) (ir : Byte), s.status = .running → s.params.unknownPolicy = .skip → s.pc.toNat ≤ 253 →
    instrAtPc s = .unknownNonAlu ir → setsPc ir = true →
    (∀ n, runSteps n s = .next s) ∧ NeverEnds s) ∧
  (∀ p : Params,
    (((List.range 256).map (BitVec.ofNat 8)).countP fun ir => !isAlu ir && setsPc ir && !isDispatchOpcode p ir) =
      (if p.hasExtraJcc then 55 else 58) ∧
    (∀ ir ∈ [0b01010010#8, 0b00010011#8], ∀ a b, setsPc ir = true ∧ decode p ir a b = .unknownNonAlu ir) ∧
    (p.hasExtraJcc = false → ∀ ir ∈ [0x57#8, 0x58#8, 0x5A#8], ∀ a b,
      setsPc ir = true ∧ decode p ir a b = .unknownNonAlu ir))

/-- R212 (the spec's derivation from R201, R205 and R207, with its decision D17; log entry 15): a program that runs on
into zero-filled memory up to the end. Under `Skip`, each zero byte advances PC by 1, and the fetch at 254 faults; under
`Fault`, the first zero byte raises `IllegalInstruction(0)`. The run never halts. -/
def Obligations.RunningOffTheEndFaults : Prop :=
  ∀ s : State, s.status = .running → s.pc.toNat ≤ 254 →
    (∀ a, s.pc.toNat ≤ a → a < 256 → s.mem.read a = 0#8) →
    (s.params.unknownPolicy = .skip →
      (∀ n, n ≤ 254 - s.pc.toNat → runSteps n s = .next (setPc (s.pc + BitVec.ofNat 8 n) s)) ∧
      runSteps (255 - s.pc.toNat) s = .next (setStatus (.faulted (.memoryBounds 256)) (setPc 254#8 s))) ∧
    (s.params.unknownPolicy = .fault → s.pc.toNat ≤ 253 →
      step s = .next (setStatus (.faulted (.illegalInstruction 0#8)) s)) ∧
    (∀ t, ¬ HaltsIn s t)

/-- R207: a run that ends as Halted under `Fault` ends in the same state, but for the parameter, under `Skip`. -/
def Obligations.HaltUnderFaultIsHaltUnderSkip : Prop :=
  ∀ (s t : State) (n : Nat), s.params.unknownPolicy = .fault → runSteps n s = .next t → t.status = .halted →
    runSteps n { s with params := { s.params with unknownPolicy := .skip } } =
      .next { t with params := { t.params with unknownPolicy := .skip } }

/-! ## The ALU -/

/-- R101, R103, R105: ADD, SUB and MUL, wrapped modulo 256; the index faults of their operands. -/
def Obligations.AddSubMulResults : Prop :=
  (∀ (i j : Fin 8) (s : State),
    exec (.add (regByte i) (regByte j)) s =
      .next (setPc (s.pc + 3#8) (setReg i (getReg i s + getReg j s) s)) ∧
    exec (.sub (regByte i) (regByte j)) s =
      .next (setPc (s.pc + 3#8) (setReg i (getReg i s - getReg j s) s)) ∧
    exec (.mul (regByte i) (regByte j)) s =
      .next (setPc (s.pc + 3#8) (setReg i (getReg i s * getReg j s) s))) ∧
  (∀ (a b : Byte) (s : State), 8 ≤ a.toNat → ∀ ins ∈ [Instr.add a b, .sub a b, .mul a b],
    exec ins s = .next (setStatus (.faulted (.registerIndex a)) s)) ∧
  (∀ (i : Fin 8) (b : Byte) (s : State), 8 ≤ b.toNat →
    ∀ ins ∈ [Instr.add (regByte i) b, .sub (regByte i) b, .mul (regByte i) b],
    exec ins s = .next (setStatus (.faulted (.registerIndex b)) s))

/-- R106: the modular law of ADD, SUB and MUL for all operand pairs, in exact integers. -/
def Obligations.ModularArithmeticLaw : Prop :=
  ∀ (i j : Fin 8) (s : State),
    (∃ t, exec (.add (regByte i) (regByte j)) s = .next t ∧
      ((getReg i t).toNat : Int) = ((getReg i s).toNat + (getReg j s).toNat) % 256) ∧
    (∃ t, exec (.sub (regByte i) (regByte j)) s = .next t ∧
      ((getReg i t).toNat : Int) = ((getReg i s).toNat - (getReg j s).toNat) % 256) ∧
    (∃ t, exec (.mul (regByte i) (regByte j)) s = .next t ∧
      ((getReg i t).toNat : Int) = ((getReg i s).toNat * (getReg j s).toNat) % 256)

/-- R107, R109: DIV and MOD by a register that is not 0, the divide by zero fault, and the index faults, which come
first. -/
def Obligations.DivModResults : Prop :=
  (∀ (i j : Fin 8) (s : State), getReg j s ≠ 0#8 →
    exec (.div (regByte i) (regByte j)) s =
      .next (setPc (s.pc + 3#8) (setReg i (getReg i s / getReg j s) s)) ∧
    exec (.mod (regByte i) (regByte j)) s =
      .next (setPc (s.pc + 3#8) (setReg i (getReg i s % getReg j s) s))) ∧
  (∀ (i j : Fin 8) (s : State), getReg j s = 0#8 →
    ∀ ins ∈ [Instr.div (regByte i) (regByte j), .mod (regByte i) (regByte j)],
    exec ins s = .next (setStatus (.faulted (.divideByZero (regByte i) (regByte j))) s)) ∧
  (∀ (a b : Byte) (s : State), 8 ≤ a.toNat → ∀ ins ∈ [Instr.div a b, .mod a b],
    exec ins s = .next (setStatus (.faulted (.registerIndex a)) s)) ∧
  (∀ (i : Fin 8) (b : Byte) (s : State), 8 ≤ b.toNat → ∀ ins ∈ [Instr.div (regByte i) b, .mod (regByte i) b],
    exec ins s = .next (setStatus (.faulted (.registerIndex b)) s))

/-- R108 (the spec's derivation from R107 and R109): `d = s * (d div s) + (d rem s)` and `d rem s < s` for s ≠ 0; for s
= 0 neither instruction produces a value. -/
def Obligations.DivisionLaw : Prop :=
  ∀ (i j : Fin 8) (s : State),
    (getReg j s ≠ 0#8 → ∃ t u, exec (.div (regByte i) (regByte j)) s = .next t ∧
      exec (.mod (regByte i) (regByte j)) s = .next u ∧
      (getReg i s).toNat = (getReg j s).toNat * (getReg i t).toNat + (getReg i u).toNat ∧
      (getReg i u).toNat < (getReg j s).toNat) ∧
    (getReg j s = 0#8 → ∀ ins ∈ [Instr.div (regByte i) (regByte j), .mod (regByte i) (regByte j)],
      ∃ t, exec ins s = .next t ∧ t.regs = s.regs ∧
        t.status = .faulted (.divideByZero (regByte i) (regByte j)))

/-- R111, R113, R121: INC, DEC and NOT; NOT is the complement `255 - x[a]`, and applied twice restores the value. -/
def Obligations.IncDecNotResults : Prop :=
  (∀ (i : Fin 8) (s : State),
    exec (.inc (regByte i)) s = .next (setPc (s.pc + 2#8) (setReg i (getReg i s + 1#8) s)) ∧
    exec (.dec (regByte i)) s = .next (setPc (s.pc + 2#8) (setReg i (getReg i s - 1#8) s)) ∧
    exec (.not (regByte i)) s = .next (setPc (s.pc + 2#8) (setReg i (255#8 - getReg i s) s)) ∧
    (∀ t u, exec (.not (regByte i)) s = .next t → exec (.not (regByte i)) t = .next u → getReg i u = getReg i s)) ∧
  (∀ (a : Byte) (s : State), 8 ≤ a.toNat → ∀ ins ∈ [Instr.inc a, .dec a, .not a],
    exec ins s = .next (setStatus (.faulted (.registerIndex a)) s))

/-- R115, R117, R119: AND, OR and XOR. -/
def Obligations.BitwiseResults : Prop :=
  (∀ (i j : Fin 8) (s : State),
    exec (.and (regByte i) (regByte j)) s =
      .next (setPc (s.pc + 3#8) (setReg i (getReg i s &&& getReg j s) s)) ∧
    exec (.or (regByte i) (regByte j)) s =
      .next (setPc (s.pc + 3#8) (setReg i (getReg i s ||| getReg j s) s)) ∧
    exec (.xor (regByte i) (regByte j)) s =
      .next (setPc (s.pc + 3#8) (setReg i (getReg i s ^^^ getReg j s) s))) ∧
  (∀ (a b : Byte) (s : State), 8 ≤ a.toNat → ∀ ins ∈ [Instr.and a b, .or a b, .xor a b],
    exec ins s = .next (setStatus (.faulted (.registerIndex a)) s)) ∧
  (∀ (i : Fin 8) (b : Byte) (s : State), 8 ≤ b.toNat →
    ∀ ins ∈ [Instr.and (regByte i) b, .or (regByte i) b, .xor (regByte i) b],
    exec ins s = .next (setStatus (.faulted (.registerIndex b)) s))

/-- R122, R123 and R124 (the spec's derivation for SHR): SHL and SHR by the whole value of the amount register; an
amount of 8 or more gives 0. The order of the index faults is R100's, by the spec's decision D14 (log entry 9). -/
def Obligations.ShiftResults : Prop :=
  (∀ (i j : Fin 8) (s : State),
    exec (.shl (regByte i) (regByte j)) s = .next (setPc (s.pc + 3#8) (setReg i
      (if 8 ≤ (getReg j s).toNat then 0#8 else getReg i s <<< (getReg j s).toNat) s)) ∧
    exec (.shr (regByte i) (regByte j)) s = .next (setPc (s.pc + 3#8) (setReg i
      (if 8 ≤ (getReg j s).toNat then 0#8 else getReg i s >>> (getReg j s).toNat) s))) ∧
  (∀ (a b : Byte) (s : State), 8 ≤ a.toNat → ∀ ins ∈ [Instr.shl a b, .shr a b],
    exec ins s = .next (setStatus (.faulted (.registerIndex a)) s)) ∧
  (∀ (i : Fin 8) (b : Byte) (s : State), 8 ≤ b.toNat → ∀ ins ∈ [Instr.shl (regByte i) b, .shr (regByte i) b],
    exec ins s = .next (setStatus (.faulted (.registerIndex b)) s))

/-- R125: CMP writes all three flags from the unsigned comparison and changes no register; its index faults leave FL
alone. Their order is R100's, by the spec's decision D14 (log entry 9). -/
def Obligations.CmpResult : Prop :=
  (∀ (i j : Fin 8) (s : State),
    exec (.cmp (regByte i) (regByte j)) s = .next (setPc (s.pc + 3#8) (setFl
      { e := decide ((getReg i s).toNat = (getReg j s).toNat)
        l := decide ((getReg i s).toNat < (getReg j s).toNat)
        g := decide ((getReg j s).toNat < (getReg i s).toNat) } s))) ∧
  (∀ (a b : Byte) (s : State), 8 ≤ a.toNat →
    exec (.cmp a b) s = .next (setStatus (.faulted (.registerIndex a)) s)) ∧
  (∀ (i : Fin 8) (b : Byte) (s : State), 8 ≤ b.toNat →
    exec (.cmp (regByte i) b) s = .next (setStatus (.faulted (.registerIndex b)) s))

/-- R32: only CMP changes FL, and after a CMP that executes exactly one flag is set. -/
def Obligations.OnlyCmpWritesFlags : Prop :=
  (∀ (i : Instr) (s t : State), (∀ a b, i ≠ .cmp a b) → exec i s = .next t → t.fl = s.fl) ∧
  (∀ (i j : Fin 8) (s t : State), exec (.cmp (regByte i) (regByte j)) s = .next t →
    t.fl = (if getReg i s = getReg j s then { e := true, l := false, g := false }
      else if (getReg i s).toNat < (getReg j s).toNat then { e := false, l := true, g := false }
      else { e := false, l := false, g := true }))

/-! ## HLT, LDI, PRN -/

/-- R140: HLT halts, nothing else changes but PC, and no step follows. That PC is the address after it is the spec's
decision D24 (conflict C4; log entry 17), and that its fetch faults at 254 and 255 is decision D17 (log entry 15). -/
def Obligations.HltResult : Prop :=
  (∀ s : State, exec .hlt s = .next (setPc (s.pc + 1#8) (setStatus .halted s)) ∧
    ∀ t, exec .hlt s = .next t → step t = .fault .runHalted) ∧
  (∀ s : State, s.status = .running → 254 ≤ s.pc.toNat → s.mem.read s.pc.toNat = 0b00000001#8 →
    step s = .next (setStatus (.faulted (.memoryBounds 256)) s))

/-- R38, R200, R210: a step ends as Halted exactly when the byte at a PC of at most 253 is HLT's; at 254 and 255 the
fetch faults (the spec's decision D17; log entry 15). -/
def Obligations.OnlyHltHalts : Prop :=
  ∀ s t : State, s.status = .running → step s = .next t →
    (t.status = .halted ↔ s.pc.toNat ≤ 253 ∧ s.mem.read s.pc.toNat = 0b00000001#8)

/-- R141: LDI writes the byte b unchanged, whatever it is; R7 is SP. -/
def Obligations.LdiResult : Prop :=
  (∀ (i : Fin 8) (imm : Byte) (s : State),
    exec (.ldi (regByte i) imm) s = .next (setPc (s.pc + 3#8) (setReg i imm s))) ∧
  (∀ (imm : Byte) (s t : State), s.params.spAliasesR7 = true → exec (.ldi (regByte 7) imm) s = .next t →
    getSp t = imm) ∧
  (∀ (a imm : Byte) (s : State), 8 ≤ a.toNat →
    exec (.ldi a imm) s = .next (setStatus (.faulted (.registerIndex a)) s))

/-- R142: PRN appends the register's value to Out and changes nothing else but PC; a fault produces no output. -/
def Obligations.PrnResult : Prop :=
  (∀ (i : Fin 8) (s : State),
    exec (.prn (regByte i)) s = .next { s with pc := s.pc + 2#8, out := s.out ++ [getReg i s] }) ∧
  (∀ (a : Byte) (s : State), 8 ≤ a.toNat →
    exec (.prn a) s = .next (setStatus (.faulted (.registerIndex a)) s))

/-- R42, R143 (the spec's decision D22; log entry 25): an entry of Out, once appended, is never removed, whatever the
run does later. -/
def Obligations.OutputIsNeverRemoved : Prop :=
  ∀ (n : Nat) (s t : State), runSteps n s = .next t → ∃ added, t.out = s.out ++ added

/-! ## The stack -/

/-- R26 (the spec's decision D6; log entry 3): with `SP_ALIASES_R7`, SP and R7 are one cell; without it, no register
write changes SP and no SP write changes a register. -/
def Obligations.SpIsR7 : Prop :=
  ∀ (s : State) (v : Byte),
    (s.params.spAliasesR7 = true → getSp s = getReg 7 s ∧ getSp (setReg 7 v s) = v ∧ getReg 7 (setSp v s) = v) ∧
    (s.params.spAliasesR7 = false → ∀ i : Fin 8, getSp (setReg i v s) = getSp s ∧ getReg i (setSp v s) = getReg i s)

/-- R160: PUSH decrements SP modulo 256, then stores the register at the new SP. That the register is read after the
decrement is the spec's decision D9 (log entry 3), and that an index fault leaves SP alone is its decision D13 (log
entry 9). -/
def Obligations.PushResult : Prop :=
  (∀ (i : Fin 8) (s : State),
    exec (.push (regByte i)) s = .next (setPc (s.pc + 2#8)
      (setMem (getSp s - 1#8).toNat (getReg i (setSp (getSp s - 1#8) s)) (setSp (getSp s - 1#8) s)))) ∧
  (∀ (a : Byte) (s : State), 8 ≤ a.toNat →
    exec (.push a) s = .next (setStatus (.faulted (.registerIndex a)) s))

/-- R162: POP writes the byte at SP to the register, then increments SP; the popped cell keeps its byte. That SP is read
after the write of the register is the spec's decision D9 (log entry 3), and that an index fault leaves SP alone is its
decision D13 (log entry 9). -/
def Obligations.PopResult : Prop :=
  (∀ (i : Fin 8) (s : State),
    exec (.pop (regByte i)) s = .next (setPc (s.pc + 2#8)
      (setSp (getSp (setReg i (s.mem.read (getSp s).toNat) s) + 1#8) (setReg i (s.mem.read (getSp s).toNat) s)))) ∧
  (∀ (a : Byte) (s : State), 8 ≤ a.toNat →
    exec (.pop a) s = .next (setStatus (.faulted (.registerIndex a)) s))

/-- R161 (the spec's decisions D6 and D9; log entry 3): PUSH R7 and POP R7. With `SP_ALIASES_R7`, PUSH R7 stores the new
SP and POP R7 ends with the popped byte plus 1; without it, R7 is pushed and popped like any register. -/
def Obligations.StackOperandR7 : Prop :=
  ∀ s t u : State, exec (.push (regByte 7)) s = .next t → exec (.pop (regByte 7)) s = .next u →
    getSp t = getSp s - 1#8 ∧
    (s.params.spAliasesR7 = true → t.mem.read (getSp t).toNat = getSp t ∧
      getSp u = s.mem.read (getSp s).toNat + 1#8) ∧
    (s.params.spAliasesR7 = false → t.mem.read (getSp t).toNat = getReg 7 s ∧
      getReg 7 u = s.mem.read (getSp s).toNat ∧ getSp u = getSp s + 1#8)

/-- R163 (the spec's derivation from R160 to R162): a PUSH and its POP restore the register and SP, whatever runs
between them, as long as SP and the pushed cell are at the POP what the PUSH made them; and two PUSHes then two POPs
give the values back in LIFO order. For registers other than R7. -/
def Obligations.PushPopIsLifo : Prop :=
  (∀ (i : Fin 8) (s : State), i ≠ 7 → ∃ t, exec (.push (regByte i)) s = .next t ∧
    ∀ u : State, getSp u = getSp t → u.mem.read (getSp t).toNat = t.mem.read (getSp t).toNat →
      ∃ v, exec (.pop (regByte i)) u = .next v ∧ getReg i v = getReg i s ∧ getSp v = getSp s) ∧
  (∀ (i j k l : Fin 8) (s : State), i ≠ 7 → j ≠ 7 → k ≠ 7 → l ≠ 7 → i ≠ j → k ≠ l →
    ∃ s₁ s₂ s₃ t, exec (.push (regByte i)) s = .next s₁ ∧ exec (.push (regByte j)) s₁ = .next s₂ ∧
      exec (.pop (regByte k)) s₂ = .next s₃ ∧ exec (.pop (regByte l)) s₃ = .next t ∧
      getReg k t = getReg j s ∧ getReg l t = getReg i s ∧ getSp t = getSp s)

/-! ## Control transfer -/

/-- R170: CALL pushes `pc + 2` and jumps to the register. That the register is read after SP's decrement is the spec's
decision D9 (log entry 3), and that an index fault leaves SP and the stack cell alone is its decision D13 (log entry 9).
-/
def Obligations.CallResult : Prop :=
  (∀ (i : Fin 8) (s : State),
    exec (.call (regByte i)) s = .next (setPc (getReg i (setSp (getSp s - 1#8) s))
      (setMem (getSp s - 1#8).toNat (s.pc + 2#8) (setSp (getSp s - 1#8) s)))) ∧
  (∀ (a : Byte) (s : State), 8 ≤ a.toNat →
    exec (.call a) s = .next (setStatus (.faulted (.registerIndex a)) s))

/-- R172: RET jumps to the byte at SP and increments SP modulo 256; it has no fault of its own. -/
def Obligations.RetResult : Prop :=
  ∀ s : State, exec .ret s = .next (setSp (getSp s + 1#8) (setPc (s.mem.read (getSp s).toNat) s))

/-- R173 (the spec's derivation from R170 and R172): a RET resumes at the CALL site plus 2 with SP as before the CALL,
whatever the subroutine did, as long as SP and the cell of the return address are at the RET what the CALL made them. -/
def Obligations.CallReturnsToNextInstruction : Prop :=
  ∀ (i : Fin 8) (s : State), ∃ t, exec (.call (regByte i)) s = .next t ∧
    ∀ u : State, getSp u = getSp t → u.mem.read (getSp t).toNat = t.mem.read (getSp t).toNat →
      ∃ v, exec .ret u = .next v ∧ v.pc = s.pc + 2#8 ∧ getSp v = getSp s

/-- R174: JMP jumps to the register's value; at its own address it is executed forever, and the run neither halts nor
faults. -/
def Obligations.JmpResult : Prop :=
  (∀ (i : Fin 8) (s : State), exec (.jmp (regByte i)) s = .next (setPc (getReg i s) s)) ∧
  (∀ (a : Byte) (s : State), 8 ≤ a.toNat →
    exec (.jmp a) s = .next (setStatus (.faulted (.registerIndex a)) s)) ∧
  (∀ (s : State) (i : Fin 8), s.status = .running → s.pc.toNat ≤ 253 → instrAtPc s = .jmp (regByte i) →
    getReg i s = s.pc → (∀ n, runSteps n s = .next s) ∧ NeverEnds s)

/-- R176, R177, R178: JEQ and JNE jump by E alone. That they fall through to `pc + 2`, and that the index is checked
either way, is R176's, by the spec's decision D16 (conflict C5; log entry 22). -/
def Obligations.JeqJneResults : Prop :=
  (∀ (i : Fin 8) (s : State),
    exec (.jeq (regByte i)) s = .next (setPc (if s.fl.e = true then getReg i s else s.pc + 2#8) s) ∧
    exec (.jne (regByte i)) s = .next (setPc (if s.fl.e = false then getReg i s else s.pc + 2#8) s)) ∧
  (∀ (a : Byte) (s : State), 8 ≤ a.toNat → ∀ ins ∈ [Instr.jeq a, .jne a],
    exec ins s = .next (setStatus (.faulted (.registerIndex a)) s))

/-- R176, R180 to R184, which the spec takes from general knowledge (log entries 5, 6 and 8): JLE, JGT, JLT and JGE jump
or fall through to `pc + 2`, and the index is checked either way (log entry 22). With `HAS_EXTRA_JCC` three more bytes
are JGT, JLT and JGE; without it they are unknown opcodes. -/
def Obligations.OrderedJumpResults : Prop :=
  (∀ (i : Fin 8) (s : State),
    exec (.jle (regByte i)) s = .next (setPc (if s.fl.l = true ∨ s.fl.e = true then getReg i s else s.pc + 2#8) s) ∧
    exec (.jgt (regByte i)) s = .next (setPc (if s.fl.g = true then getReg i s else s.pc + 2#8) s) ∧
    exec (.jlt (regByte i)) s = .next (setPc (if s.fl.l = true then getReg i s else s.pc + 2#8) s) ∧
    exec (.jge (regByte i)) s = .next (setPc (if s.fl.g = true ∨ s.fl.e = true then getReg i s else s.pc + 2#8) s)) ∧
  (∀ (a : Byte) (s : State), 8 ≤ a.toNat → ∀ ins ∈ [Instr.jle a, .jgt a, .jlt a, .jge a],
    exec ins s = .next (setStatus (.faulted (.registerIndex a)) s)) ∧
  (∀ (p : Params) (a b : Byte),
    (p.hasExtraJcc = true → decode p 0b01010111#8 a b = .jgt a ∧ decode p 0b01011000#8 a b = .jlt a ∧
      decode p 0b01011010#8 a b = .jge a) ∧
    (p.hasExtraJcc = false → decode p 0b01010111#8 a b = .unknownNonAlu 0b01010111#8 ∧
      decode p 0b01011000#8 a b = .unknownNonAlu 0b01011000#8 ∧
      decode p 0b01011010#8 a b = .unknownNonAlu 0b01011010#8))

/-- R125, R126, R177 to R184 (log entries 8 and 22): after `CMP Ra, Rb`, each conditional jump is taken exactly on its
unsigned relation of the compared values. -/
def Obligations.JumpsFollowUnsignedCompare : Prop :=
  ∀ (i j k : Fin 8) (s : State), ∃ t, exec (.cmp (regByte i) (regByte j)) s = .next t ∧
    ∀ (ins : Instr) (rel : Nat → Nat → Bool),
      (ins, rel) ∈ [(Instr.jeq (regByte k), fun x y : Nat => decide (x = y)), (.jne (regByte k), fun x y => decide (x ≠ y)),
        (.jle (regByte k), fun x y => decide (x ≤ y)), (.jgt (regByte k), fun x y => decide (y < x)),
        (.jlt (regByte k), fun x y => decide (x < y)), (.jge (regByte k), fun x y => decide (y ≤ x))] →
      ∃ u, exec ins t = .next u ∧
        u.pc = if rel (getReg i s).toNat (getReg j s).toNat then getReg k s else s.pc + 5#8

/-! ## Frames: what an instruction leaves unchanged, also where it faults -/

/-- R24, R32, R52, R100: the ALU operations but CMP, and LDI, change no register but the one operand a names, and
neither FL, memory, Out nor a separate SP cell. -/
def Obligations.FrameOfRegisterWriters : Prop :=
  ∀ (a b : Byte) (s t : State) (i : Instr),
    i ∈ [Instr.add a b, .sub a b, .mul a b, .div a b, .mod a b, .inc a, .dec a, .and a b, .not a, .or a b, .xor a b,
      .shl a b, .shr a b, .ldi a b] →
    exec i s = .next t →
    (∀ j : Fin 8, j.val ≠ a.toNat → getReg j t = getReg j s) ∧ t.spCell = s.spCell ∧ t.fl = s.fl ∧
    (∀ addr, t.mem.read addr = s.mem.read addr) ∧ t.out = s.out ∧ t.params = s.params ∧
    (t.status = s.status ∨ ∃ k, t.status = .faulted k)

/-- R24, R32, R52, R140, R142, R176: CMP, HLT, PRN, the jumps and the unknown opcodes write no register and no memory;
only CMP changes FL, only PRN changes Out, only HLT sets Halted. -/
def Obligations.FrameOfRegisterReaders : Prop :=
  ∀ (a b ir : Byte) (s t : State) (i : Instr),
    i ∈ [Instr.cmp a b, .hlt, .prn a, .jmp a, .jeq a, .jne a, .jle a, .jgt a, .jlt a, .jge a, .unknownAlu ir,
      .unknownNonAlu ir] →
    exec i s = .next t →
    (∀ j : Fin 8, getReg j t = getReg j s) ∧ t.spCell = s.spCell ∧
    (∀ addr, t.mem.read addr = s.mem.read addr) ∧ t.params = s.params ∧
    (i ≠ .cmp a b → t.fl = s.fl) ∧ (i ≠ .prn a → t.out = s.out) ∧
    (i ≠ .hlt → t.status = s.status ∨ ∃ k, t.status = .faulted k)

/-- R52, R160, R170: PUSH and CALL store one byte, at `pushAddress`, and change no register but SP. -/
def Obligations.FrameOfPushAndCall : Prop :=
  ∀ (a : Byte) (s t : State) (i : Instr), i ∈ [Instr.push a, .call a] → exec i s = .next t →
    (∀ addr stored, stored = pushAddress s → addr ≠ stored → t.mem.read addr = s.mem.read addr) ∧
    (∀ j : Fin 8, (s.params.spAliasesR7 = true → j ≠ 7) → getReg j t = getReg j s) ∧
    (s.params.spAliasesR7 = true → t.spCell = s.spCell) ∧ t.fl = s.fl ∧ t.out = s.out ∧ t.params = s.params ∧
    (t.status = s.status ∨ ∃ k, t.status = .faulted k)

/-- R52, R162, R172: POP and RET store nothing, and change no register but SP and, for POP, the one operand a names. -/
def Obligations.FrameOfPopAndRet : Prop :=
  ∀ (a : Byte) (s t : State) (i : Instr), i ∈ [Instr.pop a, .ret] → exec i s = .next t →
    (∀ addr, t.mem.read addr = s.mem.read addr) ∧
    (∀ j : Fin 8, (s.params.spAliasesR7 = true → j ≠ 7) → (i = .pop a → j.val ≠ a.toNat) →
      getReg j t = getReg j s) ∧
    (s.params.spAliasesR7 = true → t.spCell = s.spCell) ∧ t.fl = s.fl ∧ t.out = s.out ∧ t.params = s.params ∧
    (t.status = s.status ∨ ∃ k, t.status = .faulted k)

/-! ## Whole-machine invariants -/

/-- R31, R34, R50: from every state in which memory is canonical and at most one flag is set, a step leads to such a
state. -/
def Obligations.StepKeepsInvariant : Prop :=
  ∀ s t : State, Inv s → step s = .next t → Inv t

/-- R34, R260: the invariant holds after reset and load, for every parameter choice, `GPR_RESET` and image. -/
def Obligations.BootMeetsInvariant : Prop :=
  ∀ (p : Params) (g : Vector Byte 8) (image : List Byte) (s : State), boot p g image = some s → Inv s

/-- R35 (from general knowledge; log entry 13): FL as a byte is `0b00000LGE`. -/
def Obligations.FlagsByteLayout : Prop :=
  ∀ f : Flags, f.toByte.getLsbD 0 = f.e ∧ f.toByte.getLsbD 1 = f.g ∧ f.toByte.getLsbD 2 = f.l ∧
    ∀ k, 3 ≤ k → k < 8 → f.toByte.getLsbD k = false
end

