-- ==== Sys2Proof/Laws/Decode.lean ====
section
/-! SUPPORT. What the decode tables hold: a row found is a row of the table, the tables' opcodes do not overlap, and each
opcode of the map decodes to its instruction. -/

namespace Sys2Proof

theorem mem_of_lookup_eq_some {ir : Byte} {make : Byte → Byte → Instr} {rows : List DecodeRow}
    (h : rows.lookup ir = some make) : (ir, make) ∈ rows := by
  induction rows with
  | nil => simp at h
  | cons row rest ih =>
    obtain ⟨op, f⟩ := row
    rw [List.lookup_cons] at h
    split at h
    · rename_i heq
      have : ir = op := by simpa using heq
      simp_all
    · exact List.mem_cons_of_mem _ (ih h)

/-- No two rows of the full opcode map have the same opcode byte. -/
theorem opcodes_distinct :
    ((aluTable ++ (baseDispatchTable ++ extraDispatchTable)).map Prod.fst).Pairwise (· ≠ ·) := by decide

/-- Every ALU opcode has IR[5] = 1, so the ALU path reaches its row (R76). -/
theorem aluTable_isAlu : ∀ op ∈ aluTable.map Prod.fst, isAlu op = true := by decide

/-- Every opcode of the dispatch table has IR[5] = 0, so the dispatch path reaches its row (R76). -/
theorem dispatchTable_notAlu :
    ∀ op ∈ (baseDispatchTable ++ extraDispatchTable).map Prod.fst, isAlu op = false := by decide

theorem dispatchTable_extra {p : Params} (h : p.hasExtraJcc = true) :
    dispatchTable p = baseDispatchTable ++ extraDispatchTable := by simp [dispatchTable, h]

theorem dispatchTable_base {p : Params} (h : p.hasExtraJcc = false) : dispatchTable p = baseDispatchTable := by
  simp [dispatchTable, h]

/-- Decoding on the ALU path. -/
theorem decode_alu {ir : Byte} (h : isAlu ir = true) (p : Params) (a b : Byte) :
    (∃ make, (ir, make) ∈ aluTable ∧ decode p ir a b = make a b ∧ isAluOpcode ir = true) ∨
    (decode p ir a b = .unknownAlu ir ∧ isAluOpcode ir = false) := by
  unfold decode isAluOpcode
  rw [if_pos h]
  cases hl : aluTable.lookup ir with
  | some make => exact .inl ⟨make, mem_of_lookup_eq_some hl, rfl, rfl⟩
  | none => exact .inr ⟨rfl, rfl⟩

/-- Decoding on the dispatch path. -/
theorem decode_dispatch {ir : Byte} (h : isAlu ir = false) (p : Params) (a b : Byte) :
    (∃ make, (ir, make) ∈ dispatchTable p ∧ decode p ir a b = make a b ∧ isDispatchOpcode p ir = true) ∨
    (decode p ir a b = .unknownNonAlu ir ∧ isDispatchOpcode p ir = false) := by
  unfold decode isDispatchOpcode
  rw [if_neg (by simp [h])]
  cases hl : (dispatchTable p).lookup ir with
  | some make => exact .inl ⟨make, mem_of_lookup_eq_some hl, rfl, rfl⟩
  | none => exact .inr ⟨rfl, rfl⟩

/-- A row of the base dispatch table is found whatever the parameters. -/
theorem lookup_dispatch_base {ir : Byte} {make : Byte → Byte → Instr}
    (h : baseDispatchTable.lookup ir = some make) (p : Params) : (dispatchTable p).lookup ir = some make := by
  cases hp : p.hasExtraJcc
  · rw [dispatchTable_base hp]; exact h
  · rw [dispatchTable_extra hp, List.lookup_append, h]; rfl

/-! ## The fields of each opcode (the columns of R76) -/

@[simp] theorem operandCount_opAdd : operandCount opAdd = 2 := by decide
@[simp] theorem isAlu_opAdd : isAlu opAdd = true := by decide
@[simp] theorem setsPc_opAdd : setsPc opAdd = false := by decide
@[simp] theorem operandCount_opSub : operandCount opSub = 2 := by decide
@[simp] theorem isAlu_opSub : isAlu opSub = true := by decide
@[simp] theorem setsPc_opSub : setsPc opSub = false := by decide
@[simp] theorem operandCount_opMul : operandCount opMul = 2 := by decide
@[simp] theorem isAlu_opMul : isAlu opMul = true := by decide
@[simp] theorem setsPc_opMul : setsPc opMul = false := by decide
@[simp] theorem operandCount_opDiv : operandCount opDiv = 2 := by decide
@[simp] theorem isAlu_opDiv : isAlu opDiv = true := by decide
@[simp] theorem setsPc_opDiv : setsPc opDiv = false := by decide
@[simp] theorem operandCount_opMod : operandCount opMod = 2 := by decide
@[simp] theorem isAlu_opMod : isAlu opMod = true := by decide
@[simp] theorem setsPc_opMod : setsPc opMod = false := by decide
@[simp] theorem operandCount_opInc : operandCount opInc = 1 := by decide
@[simp] theorem isAlu_opInc : isAlu opInc = true := by decide
@[simp] theorem setsPc_opInc : setsPc opInc = false := by decide
@[simp] theorem operandCount_opDec : operandCount opDec = 1 := by decide
@[simp] theorem isAlu_opDec : isAlu opDec = true := by decide
@[simp] theorem setsPc_opDec : setsPc opDec = false := by decide
@[simp] theorem operandCount_opCmp : operandCount opCmp = 2 := by decide
@[simp] theorem isAlu_opCmp : isAlu opCmp = true := by decide
@[simp] theorem setsPc_opCmp : setsPc opCmp = false := by decide
@[simp] theorem operandCount_opAnd : operandCount opAnd = 2 := by decide
@[simp] theorem isAlu_opAnd : isAlu opAnd = true := by decide
@[simp] theorem setsPc_opAnd : setsPc opAnd = false := by decide
@[simp] theorem operandCount_opNot : operandCount opNot = 1 := by decide
@[simp] theorem isAlu_opNot : isAlu opNot = true := by decide
@[simp] theorem setsPc_opNot : setsPc opNot = false := by decide
@[simp] theorem operandCount_opOr : operandCount opOr = 2 := by decide
@[simp] theorem isAlu_opOr : isAlu opOr = true := by decide
@[simp] theorem setsPc_opOr : setsPc opOr = false := by decide
@[simp] theorem operandCount_opXor : operandCount opXor = 2 := by decide
@[simp] theorem isAlu_opXor : isAlu opXor = true := by decide
@[simp] theorem setsPc_opXor : setsPc opXor = false := by decide
@[simp] theorem operandCount_opShl : operandCount opShl = 2 := by decide
@[simp] theorem isAlu_opShl : isAlu opShl = true := by decide
@[simp] theorem setsPc_opShl : setsPc opShl = false := by decide
@[simp] theorem operandCount_opShr : operandCount opShr = 2 := by decide
@[simp] theorem isAlu_opShr : isAlu opShr = true := by decide
@[simp] theorem setsPc_opShr : setsPc opShr = false := by decide
@[simp] theorem operandCount_opHlt : operandCount opHlt = 0 := by decide
@[simp] theorem isAlu_opHlt : isAlu opHlt = false := by decide
@[simp] theorem setsPc_opHlt : setsPc opHlt = false := by decide
@[simp] theorem operandCount_opLdi : operandCount opLdi = 2 := by decide
@[simp] theorem isAlu_opLdi : isAlu opLdi = false := by decide
@[simp] theorem setsPc_opLdi : setsPc opLdi = false := by decide
@[simp] theorem operandCount_opPrn : operandCount opPrn = 1 := by decide
@[simp] theorem isAlu_opPrn : isAlu opPrn = false := by decide
@[simp] theorem setsPc_opPrn : setsPc opPrn = false := by decide
@[simp] theorem operandCount_opPush : operandCount opPush = 1 := by decide
@[simp] theorem isAlu_opPush : isAlu opPush = false := by decide
@[simp] theorem setsPc_opPush : setsPc opPush = false := by decide
@[simp] theorem operandCount_opPop : operandCount opPop = 1 := by decide
@[simp] theorem isAlu_opPop : isAlu opPop = false := by decide
@[simp] theorem setsPc_opPop : setsPc opPop = false := by decide
@[simp] theorem operandCount_opCall : operandCount opCall = 1 := by decide
@[simp] theorem isAlu_opCall : isAlu opCall = false := by decide
@[simp] theorem setsPc_opCall : setsPc opCall = true := by decide
@[simp] theorem operandCount_opRet : operandCount opRet = 0 := by decide
@[simp] theorem isAlu_opRet : isAlu opRet = false := by decide
@[simp] theorem setsPc_opRet : setsPc opRet = true := by decide
@[simp] theorem operandCount_opJmp : operandCount opJmp = 1 := by decide
@[simp] theorem isAlu_opJmp : isAlu opJmp = false := by decide
@[simp] theorem setsPc_opJmp : setsPc opJmp = true := by decide
@[simp] theorem operandCount_opJeq : operandCount opJeq = 1 := by decide
@[simp] theorem isAlu_opJeq : isAlu opJeq = false := by decide
@[simp] theorem setsPc_opJeq : setsPc opJeq = true := by decide
@[simp] theorem operandCount_opJne : operandCount opJne = 1 := by decide
@[simp] theorem isAlu_opJne : isAlu opJne = false := by decide
@[simp] theorem setsPc_opJne : setsPc opJne = true := by decide
@[simp] theorem operandCount_opJle : operandCount opJle = 1 := by decide
@[simp] theorem isAlu_opJle : isAlu opJle = false := by decide
@[simp] theorem setsPc_opJle : setsPc opJle = true := by decide
@[simp] theorem operandCount_opJgt : operandCount opJgt = 1 := by decide
@[simp] theorem isAlu_opJgt : isAlu opJgt = false := by decide
@[simp] theorem setsPc_opJgt : setsPc opJgt = true := by decide
@[simp] theorem operandCount_opJlt : operandCount opJlt = 1 := by decide
@[simp] theorem isAlu_opJlt : isAlu opJlt = false := by decide
@[simp] theorem setsPc_opJlt : setsPc opJlt = true := by decide
@[simp] theorem operandCount_opJge : operandCount opJge = 1 := by decide
@[simp] theorem isAlu_opJge : isAlu opJge = false := by decide
@[simp] theorem setsPc_opJge : setsPc opJge = true := by decide

/-! ## Each opcode of the map decodes to its instruction -/

@[simp] theorem decode_opAdd (p : Params) (a b : Byte) : decode p opAdd a b = .add a b := rfl
@[simp] theorem decode_opSub (p : Params) (a b : Byte) : decode p opSub a b = .sub a b := rfl
@[simp] theorem decode_opMul (p : Params) (a b : Byte) : decode p opMul a b = .mul a b := rfl
@[simp] theorem decode_opDiv (p : Params) (a b : Byte) : decode p opDiv a b = .div a b := rfl
@[simp] theorem decode_opMod (p : Params) (a b : Byte) : decode p opMod a b = .mod a b := rfl
@[simp] theorem decode_opInc (p : Params) (a b : Byte) : decode p opInc a b = .inc a := rfl
@[simp] theorem decode_opDec (p : Params) (a b : Byte) : decode p opDec a b = .dec a := rfl
@[simp] theorem decode_opCmp (p : Params) (a b : Byte) : decode p opCmp a b = .cmp a b := rfl
@[simp] theorem decode_opAnd (p : Params) (a b : Byte) : decode p opAnd a b = .and a b := rfl
@[simp] theorem decode_opNot (p : Params) (a b : Byte) : decode p opNot a b = .not a := rfl
@[simp] theorem decode_opOr (p : Params) (a b : Byte) : decode p opOr a b = .or a b := rfl
@[simp] theorem decode_opXor (p : Params) (a b : Byte) : decode p opXor a b = .xor a b := rfl
@[simp] theorem decode_opShl (p : Params) (a b : Byte) : decode p opShl a b = .shl a b := rfl
@[simp] theorem decode_opShr (p : Params) (a b : Byte) : decode p opShr a b = .shr a b := rfl
@[simp] theorem decode_opHlt (p : Params) (a b : Byte) : decode p opHlt a b = .hlt := by
  unfold decode; rw [lookup_dispatch_base (ir := opHlt) rfl]; rfl
@[simp] theorem decode_opLdi (p : Params) (a b : Byte) : decode p opLdi a b = .ldi a b := by
  unfold decode; rw [lookup_dispatch_base (ir := opLdi) rfl]; rfl
@[simp] theorem decode_opPrn (p : Params) (a b : Byte) : decode p opPrn a b = .prn a := by
  unfold decode; rw [lookup_dispatch_base (ir := opPrn) rfl]; rfl
@[simp] theorem decode_opPush (p : Params) (a b : Byte) : decode p opPush a b = .push a := by
  unfold decode; rw [lookup_dispatch_base (ir := opPush) rfl]; rfl
@[simp] theorem decode_opPop (p : Params) (a b : Byte) : decode p opPop a b = .pop a := by
  unfold decode; rw [lookup_dispatch_base (ir := opPop) rfl]; rfl
@[simp] theorem decode_opCall (p : Params) (a b : Byte) : decode p opCall a b = .call a := by
  unfold decode; rw [lookup_dispatch_base (ir := opCall) rfl]; rfl
@[simp] theorem decode_opRet (p : Params) (a b : Byte) : decode p opRet a b = .ret := by
  unfold decode; rw [lookup_dispatch_base (ir := opRet) rfl]; rfl
@[simp] theorem decode_opJmp (p : Params) (a b : Byte) : decode p opJmp a b = .jmp a := by
  unfold decode; rw [lookup_dispatch_base (ir := opJmp) rfl]; rfl
@[simp] theorem decode_opJeq (p : Params) (a b : Byte) : decode p opJeq a b = .jeq a := by
  unfold decode; rw [lookup_dispatch_base (ir := opJeq) rfl]; rfl
@[simp] theorem decode_opJne (p : Params) (a b : Byte) : decode p opJne a b = .jne a := by
  unfold decode; rw [lookup_dispatch_base (ir := opJne) rfl]; rfl
@[simp] theorem decode_opJle (p : Params) (a b : Byte) : decode p opJle a b = .jle a := by
  unfold decode; rw [lookup_dispatch_base (ir := opJle) rfl]; rfl
theorem decode_opJgt {p : Params} (h : p.hasExtraJcc = true) (a b : Byte) : decode p opJgt a b = .jgt a := by
  unfold decode; rw [dispatchTable_extra h]; rfl
theorem decode_opJlt {p : Params} (h : p.hasExtraJcc = true) (a b : Byte) : decode p opJlt a b = .jlt a := by
  unfold decode; rw [dispatchTable_extra h]; rfl
theorem decode_opJge {p : Params} (h : p.hasExtraJcc = true) (a b : Byte) : decode p opJge a b = .jge a := by
  unfold decode; rw [dispatchTable_extra h]; rfl

end Sys2Proof
end

