-- ==== Sys2Proof/Laws/Memory.lean ====
section
/-! SUPPORT. The laws of memory as data: a read after a write, and that every memory operation keeps the canonical
form. The read laws need no canonical form. -/

namespace Sys2Proof.Machine

/-! ## Reading after a write -/

@[simp] theorem Memory.read_nil (a : Nat) : Memory.read [] a = 0#8 := rfl

theorem Memory.read_erase (m : Memory) (a b : Nat) :
    Memory.read (Memory.erase m a) b = if a = b then 0#8 else Memory.read m b := by
  induction m with
  | nil => simp [Memory.erase]
  | cons c rest ih =>
    obtain ⟨k, v⟩ := c
    by_cases hk : k = a
    · subst hk
      by_cases hb : k = b <;> simp_all [Memory.erase, Memory.read]
    · by_cases hb : k = b
      · subst hb
        simp [Memory.erase, Memory.read, hk, Ne.symm hk]
      · simp [Memory.erase, Memory.read, hk, hb, ih]

theorem Memory.read_insert_other {a b : Nat} (h : a ≠ b) (m : Memory) (v : Byte) :
    Memory.read (Memory.insert m a v) b = Memory.read m b := by
  induction m with
  | nil => simp [Memory.insert, Memory.read, h]
  | cons c rest ih =>
    obtain ⟨k, w⟩ := c
    by_cases hk : k < a
    · simp only [Memory.insert, if_pos hk, Memory.read, ih]
    · simp [Memory.insert, Memory.read, hk, h]

theorem Memory.read_insert_same (m : Memory) (a : Nat) (v : Byte) :
    Memory.read (Memory.insert m a v) a = v := by
  induction m with
  | nil => simp [Memory.insert, Memory.read]
  | cons c rest ih =>
    obtain ⟨k, w⟩ := c
    by_cases hk : k < a
    · have hne : k ≠ a := Nat.ne_of_lt hk
      simp [Memory.insert, Memory.read, hk, hne, ih]
    · simp [Memory.insert, Memory.read, hk]

@[simp] theorem Memory.read_write_same (m : Memory) (a : Nat) (v : Byte) : (m.write a v).read a = v := by
  unfold Memory.write
  split
  · rename_i h; simp [Memory.read_erase, h, unlistedByte]
  · exact Memory.read_insert_same _ a v

@[simp] theorem Memory.read_write_other {a b : Nat} (h : a ≠ b) (m : Memory) (v : Byte) :
    (m.write a v).read b = m.read b := by
  unfold Memory.write
  split
  · simp [Memory.read_erase, h]
  · rw [Memory.read_insert_other h, Memory.read_erase, if_neg h]

/-- What `place` leaves at an address: the byte placed there, else the byte from before. -/
theorem Memory.read_place (bs : List Byte) (m : Memory) (a b : Nat) (hb : b < memSize) :
    (m.place a bs).read b = if a ≤ b then (bs[b - a]?).getD (m.read b) else m.read b := by
  induction bs generalizing m a with
  | nil => simp [Memory.place]
  | cons v rest ih =>
    rw [Memory.place, ih]
    by_cases hab : a = b
    · subst hab
      have h1 : ¬ a + 1 ≤ a := by omega
      simp [hb, h1]
    · by_cases hle : a ≤ b
      · have h1 : a + 1 ≤ b := by omega
        have h2 : b - a = (b - (a + 1)) + 1 := by omega
        have hr : (if a < memSize then m.write a v else m).read b = m.read b := by
          split <;> simp [hab]
        rw [if_pos hle, if_pos h1, hr, h2, List.getElem?_cons_succ]
      · have h1 : ¬ a + 1 ≤ b := by omega
        rw [if_neg hle, if_neg h1]
        split <;> simp [hab]

/-! ## The canonical form -/

theorem Memory.wfAbove_cons {lo k : Nat} {v : Byte} {rest : Memory} :
    Memory.wfAbove lo ((k, v) :: rest) = true ↔
      lo ≤ k ∧ k < memSize ∧ v ≠ unlistedByte ∧ Memory.wfAbove (k + 1) rest = true := by
  simp [Memory.wfAbove, and_assoc]

theorem Memory.wfAbove_mono {lo lo' : Nat} {m : Memory} (h : lo ≤ lo') (hw : Memory.wfAbove lo' m = true) :
    Memory.wfAbove lo m = true := by
  cases m with
  | nil => rfl
  | cons c rest =>
    obtain ⟨k, v⟩ := c
    rw [Memory.wfAbove_cons] at hw ⊢
    exact ⟨Nat.le_trans h hw.1, hw.2⟩

theorem Memory.wfAbove_erase {lo : Nat} {m : Memory} (hw : Memory.wfAbove lo m = true) (a : Nat) :
    Memory.wfAbove lo (Memory.erase m a) = true := by
  induction m generalizing lo with
  | nil => rfl
  | cons c rest ih =>
    obtain ⟨k, v⟩ := c
    rw [Memory.wfAbove_cons] at hw
    by_cases hk : k = a
    · simp only [Memory.erase, if_pos hk]
      exact Memory.wfAbove_mono (by omega) (ih hw.2.2.2)
    · simp only [Memory.erase, if_neg hk]
      rw [Memory.wfAbove_cons]
      exact ⟨hw.1, hw.2.1, hw.2.2.1, ih hw.2.2.2⟩

/-- Insertion keeps the form where the address is not listed yet, as after `erase`. -/
theorem Memory.wfAbove_insert_erase {lo : Nat} {m : Memory} (hw : Memory.wfAbove lo m = true) {a : Nat} {v : Byte}
    (hlo : lo ≤ a) (ha : a < memSize) (hv : v ≠ unlistedByte) :
    Memory.wfAbove lo (Memory.insert (Memory.erase m a) a v) = true := by
  induction m generalizing lo with
  | nil =>
    simp only [Memory.erase, Memory.insert]
    rw [Memory.wfAbove_cons]
    exact ⟨hlo, ha, hv, rfl⟩
  | cons c rest ih =>
    obtain ⟨k, w⟩ := c
    rw [Memory.wfAbove_cons] at hw
    by_cases hk : k = a
    · simp only [Memory.erase, if_pos hk]
      exact ih (Memory.wfAbove_mono (by omega) hw.2.2.2) hlo
    · simp only [Memory.erase, if_neg hk]
      by_cases hlt : k < a
      · simp only [Memory.insert, if_pos hlt]
        rw [Memory.wfAbove_cons]
        exact ⟨hw.1, hw.2.1, hw.2.2.1, ih hw.2.2.2 (by omega)⟩
      · simp only [Memory.insert, if_neg hlt]
        rw [Memory.wfAbove_cons, Memory.wfAbove_cons]
        exact ⟨hlo, ha, hv, by omega, hw.2.1, hw.2.2.1, Memory.wfAbove_erase hw.2.2.2 a⟩

/-- A write in bounds keeps the canonical form. -/
theorem Memory.wf_write {m : Memory} (hw : m.wf = true) {a : Nat} (ha : a < memSize) (v : Byte) :
    (m.write a v).wf = true := by
  unfold Memory.write
  split
  · exact Memory.wfAbove_erase hw a
  · rename_i hv; exact Memory.wfAbove_insert_erase hw (Nat.zero_le a) ha hv

/-- Placing a list of bytes keeps the canonical form. -/
theorem Memory.wf_place {m : Memory} (hw : m.wf = true) (a : Nat) (bs : List Byte) : (m.place a bs).wf = true := by
  induction bs generalizing m a with
  | nil => exact hw
  | cons v rest ih =>
    rw [Memory.place]
    apply ih
    split
    · rename_i ha; exact Memory.wf_write hw ha v
    · exact hw

@[simp] theorem Memory.wf_nil : Memory.wf [] = true := rfl

end Sys2Proof.Machine
end

