-- ==== Sys2Proof/Laws/State.lean ====
section
/-! SUPPORT. One lemma per field per update of State, and what the accessors getReg and getSp read after each update, so
that no later proof unfolds a record update. -/

namespace Sys2Proof.Machine

@[simp] theorem setReg_params (i : Fin 8) (v : Byte) (s : State) : (setReg i v s).params = s.params := rfl
@[simp] theorem setReg_regs (i : Fin 8) (v : Byte) (s : State) : (setReg i v s).regs = s.regs.set i.val v := rfl
@[simp] theorem setReg_spCell (i : Fin 8) (v : Byte) (s : State) : (setReg i v s).spCell = s.spCell := rfl
@[simp] theorem setReg_pc (i : Fin 8) (v : Byte) (s : State) : (setReg i v s).pc = s.pc := rfl
@[simp] theorem setReg_fl (i : Fin 8) (v : Byte) (s : State) : (setReg i v s).fl = s.fl := rfl
@[simp] theorem setReg_mem (i : Fin 8) (v : Byte) (s : State) : (setReg i v s).mem = s.mem := rfl
@[simp] theorem setReg_status (i : Fin 8) (v : Byte) (s : State) : (setReg i v s).status = s.status := rfl
@[simp] theorem setReg_out (i : Fin 8) (v : Byte) (s : State) : (setReg i v s).out = s.out := rfl

@[simp] theorem setPc_params (v : Byte) (s : State) : (setPc v s).params = s.params := rfl
@[simp] theorem setPc_regs (v : Byte) (s : State) : (setPc v s).regs = s.regs := rfl
@[simp] theorem setPc_spCell (v : Byte) (s : State) : (setPc v s).spCell = s.spCell := rfl
@[simp] theorem setPc_pc (v : Byte) (s : State) : (setPc v s).pc = v := rfl
@[simp] theorem setPc_fl (v : Byte) (s : State) : (setPc v s).fl = s.fl := rfl
@[simp] theorem setPc_mem (v : Byte) (s : State) : (setPc v s).mem = s.mem := rfl
@[simp] theorem setPc_status (v : Byte) (s : State) : (setPc v s).status = s.status := rfl
@[simp] theorem setPc_out (v : Byte) (s : State) : (setPc v s).out = s.out := rfl

@[simp] theorem setFl_params (f : Flags) (s : State) : (setFl f s).params = s.params := rfl
@[simp] theorem setFl_regs (f : Flags) (s : State) : (setFl f s).regs = s.regs := rfl
@[simp] theorem setFl_spCell (f : Flags) (s : State) : (setFl f s).spCell = s.spCell := rfl
@[simp] theorem setFl_pc (f : Flags) (s : State) : (setFl f s).pc = s.pc := rfl
@[simp] theorem setFl_fl (f : Flags) (s : State) : (setFl f s).fl = f := rfl
@[simp] theorem setFl_mem (f : Flags) (s : State) : (setFl f s).mem = s.mem := rfl
@[simp] theorem setFl_status (f : Flags) (s : State) : (setFl f s).status = s.status := rfl
@[simp] theorem setFl_out (f : Flags) (s : State) : (setFl f s).out = s.out := rfl

@[simp] theorem setStatus_params (st : Status) (s : State) : (setStatus st s).params = s.params := rfl
@[simp] theorem setStatus_regs (st : Status) (s : State) : (setStatus st s).regs = s.regs := rfl
@[simp] theorem setStatus_spCell (st : Status) (s : State) : (setStatus st s).spCell = s.spCell := rfl
@[simp] theorem setStatus_pc (st : Status) (s : State) : (setStatus st s).pc = s.pc := rfl
@[simp] theorem setStatus_fl (st : Status) (s : State) : (setStatus st s).fl = s.fl := rfl
@[simp] theorem setStatus_mem (st : Status) (s : State) : (setStatus st s).mem = s.mem := rfl
@[simp] theorem setStatus_status (st : Status) (s : State) : (setStatus st s).status = st := rfl
@[simp] theorem setStatus_out (st : Status) (s : State) : (setStatus st s).out = s.out := rfl

@[simp] theorem setMem_params (a : Nat) (v : Byte) (s : State) : (setMem a v s).params = s.params := rfl
@[simp] theorem setMem_regs (a : Nat) (v : Byte) (s : State) : (setMem a v s).regs = s.regs := rfl
@[simp] theorem setMem_spCell (a : Nat) (v : Byte) (s : State) : (setMem a v s).spCell = s.spCell := rfl
@[simp] theorem setMem_pc (a : Nat) (v : Byte) (s : State) : (setMem a v s).pc = s.pc := rfl
@[simp] theorem setMem_fl (a : Nat) (v : Byte) (s : State) : (setMem a v s).fl = s.fl := rfl
@[simp] theorem setMem_mem (a : Nat) (v : Byte) (s : State) : (setMem a v s).mem = s.mem.write a v := rfl
@[simp] theorem setMem_status (a : Nat) (v : Byte) (s : State) : (setMem a v s).status = s.status := rfl
@[simp] theorem setMem_out (a : Nat) (v : Byte) (s : State) : (setMem a v s).out = s.out := rfl

@[simp] theorem output_params (v : Byte) (s : State) : (output v s).params = s.params := rfl
@[simp] theorem output_regs (v : Byte) (s : State) : (output v s).regs = s.regs := rfl
@[simp] theorem output_spCell (v : Byte) (s : State) : (output v s).spCell = s.spCell := rfl
@[simp] theorem output_pc (v : Byte) (s : State) : (output v s).pc = s.pc := rfl
@[simp] theorem output_fl (v : Byte) (s : State) : (output v s).fl = s.fl := rfl
@[simp] theorem output_mem (v : Byte) (s : State) : (output v s).mem = s.mem := rfl
@[simp] theorem output_status (v : Byte) (s : State) : (output v s).status = s.status := rfl
@[simp] theorem output_out (v : Byte) (s : State) : (output v s).out = s.out ++ [v] := rfl

/-! ## getReg -/

theorem getReg_eq (i : Fin 8) (s : State) : getReg i s = s.regs[i.val] := rfl

@[simp] theorem getReg_setReg_same (i : Fin 8) (v : Byte) (s : State) : getReg i (setReg i v s) = v := by
  simp [getReg]

@[simp] theorem getReg_setReg_other {i j : Fin 8} (h : i ≠ j) (v : Byte) (s : State) :
    getReg j (setReg i v s) = getReg j s := by
  have hv : i.val ≠ j.val := fun e => h (Fin.ext e)
  simp [getReg, hv]

@[simp] theorem getReg_setPc (i : Fin 8) (v : Byte) (s : State) : getReg i (setPc v s) = getReg i s := rfl
@[simp] theorem getReg_setFl (i : Fin 8) (f : Flags) (s : State) : getReg i (setFl f s) = getReg i s := rfl
@[simp] theorem getReg_setStatus (i : Fin 8) (st : Status) (s : State) : getReg i (setStatus st s) = getReg i s := rfl
@[simp] theorem getReg_setMem (i : Fin 8) (a : Nat) (v : Byte) (s : State) : getReg i (setMem a v s) = getReg i s := rfl
@[simp] theorem getReg_output (i : Fin 8) (v : Byte) (s : State) : getReg i (output v s) = getReg i s := rfl

/-! ## getSp and setSp -/

theorem getSp_alias {s : State} (h : s.params.spAliasesR7 = true) : getSp s = getReg 7 s := by
  simp [getSp, h]

theorem getSp_cell {s : State} (h : s.params.spAliasesR7 = false) : getSp s = s.spCell := by
  simp [getSp, h]

@[simp] theorem getSp_setPc (v : Byte) (s : State) : getSp (setPc v s) = getSp s := rfl
@[simp] theorem getSp_setFl (f : Flags) (s : State) : getSp (setFl f s) = getSp s := rfl
@[simp] theorem getSp_setStatus (st : Status) (s : State) : getSp (setStatus st s) = getSp s := rfl
@[simp] theorem getSp_setMem (a : Nat) (v : Byte) (s : State) : getSp (setMem a v s) = getSp s := rfl
@[simp] theorem getSp_output (v : Byte) (s : State) : getSp (output v s) = getSp s := rfl

theorem setSp_alias {s : State} (h : s.params.spAliasesR7 = true) (v : Byte) : setSp v s = setReg 7 v s := by
  simp [setSp, h]

theorem setSp_cell {s : State} (h : s.params.spAliasesR7 = false) (v : Byte) :
    setSp v s = { s with spCell := v } := by
  simp [setSp, h]

@[simp] theorem setSp_params (v : Byte) (s : State) : (setSp v s).params = s.params := by
  unfold setSp; split <;> rfl
@[simp] theorem setSp_pc (v : Byte) (s : State) : (setSp v s).pc = s.pc := by
  unfold setSp; split <;> rfl
@[simp] theorem setSp_fl (v : Byte) (s : State) : (setSp v s).fl = s.fl := by
  unfold setSp; split <;> rfl
@[simp] theorem setSp_mem (v : Byte) (s : State) : (setSp v s).mem = s.mem := by
  unfold setSp; split <;> rfl
@[simp] theorem setSp_status (v : Byte) (s : State) : (setSp v s).status = s.status := by
  unfold setSp; split <;> rfl
@[simp] theorem setSp_out (v : Byte) (s : State) : (setSp v s).out = s.out := by
  unfold setSp; split <;> rfl

@[simp] theorem getSp_setSp (v : Byte) (s : State) : getSp (setSp v s) = v := by
  cases h : s.params.spAliasesR7
  · rw [setSp_cell h]; exact getSp_cell h
  · rw [setSp_alias h, getSp_alias (by simpa using h), getReg_setReg_same]

/-- setSp leaves every register alone but R7, and R7 too when SP is a cell of its own. -/
theorem getReg_setSp_other {i : Fin 8} {s : State} (h : s.params.spAliasesR7 = true → i ≠ 7) (v : Byte) :
    getReg i (setSp v s) = getReg i s := by
  cases ha : s.params.spAliasesR7
  · rw [setSp_cell ha]; rfl
  · rw [setSp_alias ha, getReg_setReg_other (Ne.symm (h ha))]

/-- Writing a register other than R7, or any register when SP is a cell of its own, leaves SP alone. -/
theorem getSp_setReg_other {i : Fin 8} {s : State} (h : s.params.spAliasesR7 = true → i ≠ 7) (v : Byte) :
    getSp (setReg i v s) = getSp s := by
  cases ha : s.params.spAliasesR7
  · rw [getSp_cell ha]; exact getSp_cell ha
  · rw [getSp_alias ha, getSp_alias (by simpa using ha), getReg_setReg_other (h ha)]

/-- Two states with the same fields are the same state. -/
theorem State.ext_fields {s t : State} (h₀ : s.params = t.params) (h₁ : s.regs = t.regs) (h₂ : s.spCell = t.spCell)
    (h₃ : s.pc = t.pc) (h₄ : s.fl = t.fl) (h₅ : s.mem = t.mem) (h₆ : s.status = t.status) (h₇ : s.out = t.out) :
    s = t := by
  cases s; cases t; simp_all

end Sys2Proof.Machine
end

