-- ==== Sys2Proof/Laws/Word.lean ====
section
/-! SUPPORT. `mod256` of the exact results that the rules compute, as bit vector arithmetic. -/

namespace Sys2Proof

theorem mod256_nat (n : Nat) : mod256 (n : Int) = BitVec.ofNat 8 n := by
  simp [mod256]

theorem mod256_add (x y : Byte) : mod256 ((x.toNat : Int) + (y.toNat : Int)) = x + y := by
  apply BitVec.eq_of_toNat_eq
  simp only [mod256, BitVec.toNat_ofInt, BitVec.toNat_add]
  omega

theorem mod256_sub (x y : Byte) : mod256 ((x.toNat : Int) - (y.toNat : Int)) = x - y := by
  apply BitVec.eq_of_toNat_eq
  simp only [mod256, BitVec.toNat_ofInt, BitVec.toNat_sub]
  omega

theorem mod256_mul (x y : Byte) : mod256 ((x.toNat : Int) * (y.toNat : Int)) = x * y := by
  rw [← Int.natCast_mul, mod256_nat]
  apply BitVec.eq_of_toNat_eq
  simp [BitVec.toNat_mul]

/-- A PC or SP a literal distance ahead, wrapped. -/
theorem mod256_add_nat (x : Byte) (n : Nat) : mod256 ((x.toNat : Int) + (n : Int)) = x + BitVec.ofNat 8 n := by
  apply BitVec.eq_of_toNat_eq
  simp only [mod256, BitVec.toNat_ofInt, BitVec.toNat_add, BitVec.toNat_ofNat]
  omega

theorem mod256_add_one (x : Byte) : mod256 ((x.toNat : Int) + 1) = x + 1#8 := mod256_add_nat x 1

theorem mod256_sub_one (x : Byte) : mod256 ((x.toNat : Int) - 1) = x - 1#8 := mod256_sub x 1#8

theorem mod256_complement (x : Byte) : mod256 (255 - (x.toNat : Int)) = ~~~x := by
  apply BitVec.eq_of_toNat_eq
  have h := x.isLt
  simp only [mod256, BitVec.toNat_ofInt, BitVec.toNat_not]
  omega

theorem mod256_div (x y : Byte) : mod256 ((x.toNat / y.toNat : Nat) : Int) = x / y := by
  rw [mod256_nat]
  apply BitVec.eq_of_toNat_eq
  have h : x.toNat / y.toNat < 256 := Nat.lt_of_le_of_lt (Nat.div_le_self _ _) x.isLt
  simp [BitVec.toNat_udiv, Nat.mod_eq_of_lt h]

theorem mod256_mod (x y : Byte) : mod256 ((x.toNat % y.toNat : Nat) : Int) = x % y := by
  rw [mod256_nat]
  apply BitVec.eq_of_toNat_eq
  have h : x.toNat % y.toNat < 256 := Nat.lt_of_le_of_lt (Nat.mod_le _ _) x.isLt
  simp [BitVec.toNat_umod, Nat.mod_eq_of_lt h]

theorem mod256_and (x y : Byte) : mod256 ((x.toNat &&& y.toNat : Nat) : Int) = x &&& y := by
  rw [mod256_nat, ← BitVec.toNat_and, BitVec.ofNat_toNat, BitVec.setWidth_eq]

theorem mod256_or (x y : Byte) : mod256 ((x.toNat ||| y.toNat : Nat) : Int) = x ||| y := by
  rw [mod256_nat, ← BitVec.toNat_or, BitVec.ofNat_toNat, BitVec.setWidth_eq]

theorem mod256_xor (x y : Byte) : mod256 ((x.toNat ^^^ y.toNat : Nat) : Int) = x ^^^ y := by
  rw [mod256_nat, ← BitVec.toNat_xor, BitVec.ofNat_toNat, BitVec.setWidth_eq]

theorem mod256_shl (x : Byte) (n : Nat) : mod256 ((x.toNat <<< n : Nat) : Int) = x <<< n := by
  rw [mod256_nat]
  apply BitVec.eq_of_toNat_eq
  simp [BitVec.toNat_shiftLeft]

theorem mod256_shr (x : Byte) (n : Nat) : mod256 ((x.toNat >>> n : Nat) : Int) = x >>> n := by
  rw [mod256_nat, ← BitVec.toNat_ushiftRight, BitVec.ofNat_toNat, BitVec.setWidth_eq]

end Sys2Proof
end

