-- ==== Sys2Proof/Laws/Ops.lean ====
section
/-! SUPPORT. One lemma per shared operation that says what it does: register access through an operand byte, memory
access, SP, the advance, the end of a step, and the shared forms of the ALU and the conditional jumps. A proof cites
these instead of unfolding the operation. -/

namespace Sys2Proof.Machine

/-! ## Operand bytes -/

@[simp] theorem regByte_toNat (i : Fin 8) : (regByte i).toNat = i.val := by
  have h := i.isLt
  simp only [regByte, BitVec.toNat_ofNat]
  omega

theorem eq_regByte {a : Byte} (h : a.toNat < 8) : a = regByte ⟨a.toNat, h⟩ :=
  BitVec.eq_of_toNat_eq (by simp)

/-- An operand byte names a register, or it is outside [0,8). -/
theorem operand_cases (a : Byte) : (∃ i, a = regByte i) ∨ 8 ≤ a.toNat := by
  by_cases h : a.toNat < 8
  · exact .inl ⟨_, eq_regByte h⟩
  · exact .inr (by omega)

@[simp] theorem readReg_regByte (i : Fin 8) (s : State) : readReg (regByte i) s = .ok (getReg i s) := by
  simp [readReg]

theorem readReg_outside {a : Byte} (h : 8 ≤ a.toNat) (s : State) : readReg a s = .error (.registerIndex a) := by
  have : ¬ a.toNat < 8 := by omega
  simp [readReg, this]

@[simp] theorem writeReg_regByte (i : Fin 8) (v : Byte) (s : State) :
    writeReg (regByte i) v s = .ok (setReg i v s) := by
  simp [writeReg]

theorem writeReg_outside {a : Byte} (h : 8 ≤ a.toNat) (v : Byte) (s : State) :
    writeReg a v s = .error (.registerIndex a) := by
  have : ¬ a.toNat < 8 := by omega
  simp [writeReg, this]

@[simp] theorem checkIndex_regByte (i : Fin 8) : checkIndex (regByte i) = .ok () := by
  simp [checkIndex]

theorem checkIndex_outside {a : Byte} (h : 8 ≤ a.toNat) : checkIndex a = .error (.registerIndex a) := by
  have : ¬ a.toNat < 8 := by omega
  simp [checkIndex, this]

/-! ## Memory access: SP always names a byte of memory (R53) -/

theorem byte_lt_memSize (v : Byte) : v.toNat < memSize := v.isLt

@[simp] theorem memRead_byte (v : Byte) (s : State) : memRead v.toNat s = .ok (s.mem.read v.toNat) := by
  simp [memRead, byte_lt_memSize v]

@[simp] theorem memWrite_byte (a v : Byte) (s : State) : memWrite a.toNat v s = .ok (setMem a.toNat v s) := by
  simp [memWrite, byte_lt_memSize a]

@[simp] theorem memWrite_pushAddress (v : Byte) (s t : State) :
    memWrite (pushAddress s) v t = .ok (setMem (pushAddress s) v t) := by
  simp [memWrite, pushAddress, byte_lt_memSize]

/-! ## SP and PC arithmetic -/

theorem decrementedSp_eq (s : State) : decrementedSp s = getSp s - 1#8 := mod256_sub_one _

theorem pushAddress_eq (s : State) : pushAddress s = (getSp s - 1#8).toNat := by
  rw [pushAddress, decrementedSp_eq]

theorem incrementedSp_eq (s : State) : incrementedSp s = getSp s + 1#8 := mod256_add_one _

theorem pcAfterTwoBytes_eq (s : State) : pcAfterTwoBytes s = s.pc + 2#8 := mod256_add_nat s.pc 2

/-- The advance of an instruction with setsPC = 0 and n operand bytes. -/
theorem advance_bytes {ir : Byte} {n : Nat} (hs : setsPc ir = false) (hn : operandCount ir = n) (s : State) :
    advance ir s = setPc (s.pc + BitVec.ofNat 8 (n + 1)) s := by
  have h : (s.pc.toNat : Int) + (operandCount ir : Int) + 1 = (s.pc.toNat : Int) + ((n + 1 : Nat) : Int) := by
    rw [hn]; omega
  rw [advance, hs, if_neg (by simp), h, mod256_add_nat]

theorem advance_none {ir : Byte} (hs : setsPc ir = true) (s : State) : advance ir s = s := by
  simp [advance, hs]

/-! ## The end of a step -/

@[simp] theorem complete_error (ir : Byte) (s : State) (k : FaultKind) :
    complete ir s (.error k) = .next (setStatus (.faulted k) s) := rfl

@[simp] theorem complete_ok (ir : Byte) (s s' : State) : complete ir s (.ok s') = .next (advance ir s') := rfl

/-- Whatever a rule does, its execution ends in a next state. -/
theorem complete_next (ir : Byte) (s : State) (r : Except FaultKind State) :
    (∃ k, r = .error k ∧ complete ir s r = .next (setStatus (.faulted k) s)) ∨
    (∃ s', r = .ok s' ∧ complete ir s r = .next (advance ir s')) := by
  cases r with
  | error k => exact .inl ⟨k, rfl, rfl⟩
  | ok s' => exact .inr ⟨s', rfl, rfl⟩

/-! ## The shared forms -/

theorem aluBinary_ok (ir : Byte) (f : Nat → Nat → Int) (i j : Fin 8) (s : State) :
    aluBinary ir f (regByte i) (regByte j) s =
      .next (advance ir (setReg i (mod256 (f (getReg i s).toNat (getReg j s).toNat)) s)) := by
  simp [aluBinary, bind, Except.bind]

theorem aluUnary_ok (ir : Byte) (f : Nat → Int) (i : Fin 8) (s : State) :
    aluUnary ir f (regByte i) s = .next (advance ir (setReg i (mod256 (f (getReg i s).toNat)) s)) := by
  simp [aluUnary, bind, Except.bind]

theorem aluDivide_ok (ir : Byte) (f : Nat → Nat → Nat) (i j : Fin 8) (s : State) (h : getReg j s ≠ 0#8) :
    aluDivide ir f (regByte i) (regByte j) s =
      .next (advance ir (setReg i (mod256 (f (getReg i s).toNat (getReg j s).toNat)) s)) := by
  simp [aluDivide, bind, Except.bind, h]

theorem aluDivide_zero (ir : Byte) (f : Nat → Nat → Nat) (i j : Fin 8) (s : State) (h : getReg j s = 0#8) :
    aluDivide ir f (regByte i) (regByte j) s =
      .next (setStatus (.faulted (.divideByZero (regByte i) (regByte j))) s) := by
  simp [aluDivide, bind, Except.bind, h]

theorem aluBinary_outside_a (ir : Byte) (f : Nat → Nat → Int) {a : Byte} (h : 8 ≤ a.toNat) (b : Byte) (s : State) :
    aluBinary ir f a b s = .next (setStatus (.faulted (.registerIndex a)) s) := by
  simp [aluBinary, bind, Except.bind, readReg_outside h]

theorem aluBinary_outside_b (ir : Byte) (f : Nat → Nat → Int) (i : Fin 8) {b : Byte} (h : 8 ≤ b.toNat) (s : State) :
    aluBinary ir f (regByte i) b s = .next (setStatus (.faulted (.registerIndex b)) s) := by
  simp [aluBinary, bind, Except.bind, readReg_outside h]

theorem aluUnary_outside (ir : Byte) (f : Nat → Int) {a : Byte} (h : 8 ≤ a.toNat) (s : State) :
    aluUnary ir f a s = .next (setStatus (.faulted (.registerIndex a)) s) := by
  simp [aluUnary, bind, Except.bind, readReg_outside h]

theorem aluDivide_outside_a (ir : Byte) (f : Nat → Nat → Nat) {a : Byte} (h : 8 ≤ a.toNat) (b : Byte) (s : State) :
    aluDivide ir f a b s = .next (setStatus (.faulted (.registerIndex a)) s) := by
  simp [aluDivide, bind, Except.bind, readReg_outside h]

theorem aluDivide_outside_b (ir : Byte) (f : Nat → Nat → Nat) (i : Fin 8) {b : Byte} (h : 8 ≤ b.toNat) (s : State) :
    aluDivide ir f (regByte i) b s = .next (setStatus (.faulted (.registerIndex b)) s) := by
  simp [aluDivide, bind, Except.bind, readReg_outside h]

theorem condJump_ok (ir : Byte) (cond : Flags → Bool) (i : Fin 8) (s : State) :
    condJump ir cond (regByte i) s =
      .next (advance ir (setPc (if cond s.fl then getReg i s else pcAfterTwoBytes s) s)) := by
  simp [condJump, bind, Except.bind]

theorem condJump_outside (ir : Byte) (cond : Flags → Bool) {a : Byte} (h : 8 ≤ a.toNat) (s : State) :
    condJump ir cond a s = .next (setStatus (.faulted (.registerIndex a)) s) := by
  simp [condJump, bind, Except.bind, checkIndex_outside h]

end Sys2Proof.Machine
end

