-- ==== Sys2Proof/Laws/PerInstr.lean ====
section
/-! SUPPORT. Laws stated per instruction, one lemma per constructor of Instr. The family EncodedLength: an instruction's
bytes are as many as the operand count of its opcode's bits plus 1 (`30_encoding.md` R70, R71), but for the two classes
of unknown opcodes, whose term holds the opcode byte alone. -/

namespace Sys2Proof.Laws

/-- R70: the length in bytes is `operandCount + 1`, from the bits of the opcode. -/
def EncodedLength.Statement (i : Instr) : Prop :=
  (∀ ir, i ≠ .unknownAlu ir) → (∀ ir, i ≠ .unknownNonAlu ir) → (encode i).length = operandCount i.opcode + 1

theorem EncodedLength.add (a b : Byte) : EncodedLength.Statement (.add a b) :=
  fun _ _ => congrArg (· + 1) operandCount_opAdd.symm
theorem EncodedLength.sub (a b : Byte) : EncodedLength.Statement (.sub a b) :=
  fun _ _ => congrArg (· + 1) operandCount_opSub.symm
theorem EncodedLength.mul (a b : Byte) : EncodedLength.Statement (.mul a b) :=
  fun _ _ => congrArg (· + 1) operandCount_opMul.symm
theorem EncodedLength.div (a b : Byte) : EncodedLength.Statement (.div a b) :=
  fun _ _ => congrArg (· + 1) operandCount_opDiv.symm
theorem EncodedLength.mod (a b : Byte) : EncodedLength.Statement (.mod a b) :=
  fun _ _ => congrArg (· + 1) operandCount_opMod.symm
theorem EncodedLength.inc (a : Byte) : EncodedLength.Statement (.inc a) :=
  fun _ _ => congrArg (· + 1) operandCount_opInc.symm
theorem EncodedLength.dec (a : Byte) : EncodedLength.Statement (.dec a) :=
  fun _ _ => congrArg (· + 1) operandCount_opDec.symm
theorem EncodedLength.cmp (a b : Byte) : EncodedLength.Statement (.cmp a b) :=
  fun _ _ => congrArg (· + 1) operandCount_opCmp.symm
theorem EncodedLength.and (a b : Byte) : EncodedLength.Statement (.and a b) :=
  fun _ _ => congrArg (· + 1) operandCount_opAnd.symm
theorem EncodedLength.not (a : Byte) : EncodedLength.Statement (.not a) :=
  fun _ _ => congrArg (· + 1) operandCount_opNot.symm
theorem EncodedLength.or (a b : Byte) : EncodedLength.Statement (.or a b) :=
  fun _ _ => congrArg (· + 1) operandCount_opOr.symm
theorem EncodedLength.xor (a b : Byte) : EncodedLength.Statement (.xor a b) :=
  fun _ _ => congrArg (· + 1) operandCount_opXor.symm
theorem EncodedLength.shl (a b : Byte) : EncodedLength.Statement (.shl a b) :=
  fun _ _ => congrArg (· + 1) operandCount_opShl.symm
theorem EncodedLength.shr (a b : Byte) : EncodedLength.Statement (.shr a b) :=
  fun _ _ => congrArg (· + 1) operandCount_opShr.symm
theorem EncodedLength.hlt : EncodedLength.Statement .hlt :=
  fun _ _ => congrArg (· + 1) operandCount_opHlt.symm
theorem EncodedLength.ldi (a imm : Byte) : EncodedLength.Statement (.ldi a imm) :=
  fun _ _ => congrArg (· + 1) operandCount_opLdi.symm
theorem EncodedLength.prn (a : Byte) : EncodedLength.Statement (.prn a) :=
  fun _ _ => congrArg (· + 1) operandCount_opPrn.symm
theorem EncodedLength.push (a : Byte) : EncodedLength.Statement (.push a) :=
  fun _ _ => congrArg (· + 1) operandCount_opPush.symm
theorem EncodedLength.pop (a : Byte) : EncodedLength.Statement (.pop a) :=
  fun _ _ => congrArg (· + 1) operandCount_opPop.symm
theorem EncodedLength.call (a : Byte) : EncodedLength.Statement (.call a) :=
  fun _ _ => congrArg (· + 1) operandCount_opCall.symm
theorem EncodedLength.ret : EncodedLength.Statement .ret :=
  fun _ _ => congrArg (· + 1) operandCount_opRet.symm
theorem EncodedLength.jmp (a : Byte) : EncodedLength.Statement (.jmp a) :=
  fun _ _ => congrArg (· + 1) operandCount_opJmp.symm
theorem EncodedLength.jeq (a : Byte) : EncodedLength.Statement (.jeq a) :=
  fun _ _ => congrArg (· + 1) operandCount_opJeq.symm
theorem EncodedLength.jne (a : Byte) : EncodedLength.Statement (.jne a) :=
  fun _ _ => congrArg (· + 1) operandCount_opJne.symm
theorem EncodedLength.jle (a : Byte) : EncodedLength.Statement (.jle a) :=
  fun _ _ => congrArg (· + 1) operandCount_opJle.symm
theorem EncodedLength.jgt (a : Byte) : EncodedLength.Statement (.jgt a) :=
  fun _ _ => congrArg (· + 1) operandCount_opJgt.symm
theorem EncodedLength.jlt (a : Byte) : EncodedLength.Statement (.jlt a) :=
  fun _ _ => congrArg (· + 1) operandCount_opJlt.symm
theorem EncodedLength.jge (a : Byte) : EncodedLength.Statement (.jge a) :=
  fun _ _ => congrArg (· + 1) operandCount_opJge.symm
theorem EncodedLength.unknownAlu (ir : Byte) : EncodedLength.Statement (.unknownAlu ir) :=
  fun h _ => absurd rfl (h ir)
theorem EncodedLength.unknownNonAlu (ir : Byte) : EncodedLength.Statement (.unknownNonAlu ir) :=
  fun _ h => absurd rfl (h ir)

end Sys2Proof.Laws
end

