-- ==== Sys2Proof/Laws/Step.lean ====
section
/-! SUPPORT. What a fetch, an execution and a step can do: the fetch by where PC stands, every execution as the completion
of a rule under the instruction's own opcode, and the step of a running core. -/

namespace Sys2Proof.Machine

/-! ## The fetch -/

theorem fetch_ok {s : State} (h : s.pc.toNat ≤ 253) :
    fetch s = .ok { ir := s.mem.read s.pc.toNat, a := s.mem.read (s.pc.toNat + 1), b := s.mem.read (s.pc.toNat + 2) } := by
  have h1 : s.pc.toNat + 1 < memSize := by unfold memSize; omega
  have h2 : s.pc.toNat + 2 < memSize := by unfold memSize; omega
  simp [fetch, memRead, byte_lt_memSize, h1, h2, bind, Except.bind]

theorem fetch_top {s : State} (h : 254 ≤ s.pc.toNat) : fetch s = .error (.memoryBounds 256) := by
  have hlt := s.pc.isLt
  rcases (by omega : s.pc.toNat = 254 ∨ s.pc.toNat = 255) with h | h <;>
    simp [fetch, memRead, memSize, h, bind, Except.bind]

/-! ## Execution -/

/-- Every meaning is the completion, under its own opcode, of a rule that raises or leaves a state. -/
theorem exec_eq_complete (i : Instr) (s : State) : ∃ r, exec i s = complete i.opcode s r := by
  cases i with
  | unknownNonAlu ir =>
    simp only [exec, execUnknownNonAlu, Instr.opcode]
    cases s.params.unknownPolicy <;> exact ⟨_, rfl⟩
  | hlt => exact ⟨.ok (setStatus .halted s), rfl⟩
  | unknownAlu ir => exact ⟨.error (.unsupportedOperation ir), rfl⟩
  | _ => exact ⟨_, rfl⟩

/-- Every execution ends in a next state, a fault's or a completed one. -/
theorem exec_next (i : Instr) (s : State) : ∃ t, exec i s = .next t := by
  obtain ⟨r, hr⟩ := exec_eq_complete i s
  rcases complete_next i.opcode s r with ⟨k, -, h⟩ | ⟨s', -, h⟩ <;> exact ⟨_, hr.trans h⟩

/-! ## The step -/

theorem step_halted {s : State} (h : s.status = .halted) : step s = .fault .runHalted := by
  simp [step, h]

theorem step_faulted {s : State} {k : FaultKind} (h : s.status = .faulted k) : step s = .fault (.runFaulted k) := by
  simp [step, h]

theorem step_top {s : State} (hr : s.status = .running) (h : 254 ≤ s.pc.toNat) :
    step s = .next (setStatus (.faulted (.memoryBounds 256)) s) := by
  simp [step, hr, fetch_top h, raise]

theorem step_exec {s : State} (hr : s.status = .running) (h : s.pc.toNat ≤ 253) :
    step s = exec (instrAtPc s) s := by
  simp [step, hr, fetch_ok h, instrAtPc]

/-- A step has a next state only in a running core, and is then the fetch fault or the execution of the instruction at
PC. -/
theorem step_cases {s t : State} (h : step s = .next t) :
    s.status = .running ∧
      ((254 ≤ s.pc.toNat ∧ t = setStatus (.faulted (.memoryBounds 256)) s) ∨
       (s.pc.toNat ≤ 253 ∧ exec (instrAtPc s) s = .next t)) := by
  cases hs : s.status with
  | halted => rw [step_halted hs] at h; cases h
  | faulted k => rw [step_faulted hs] at h; cases h
  | running =>
    refine ⟨rfl, ?_⟩
    by_cases hp : 254 ≤ s.pc.toNat
    · rw [step_top hs hp] at h
      exact .inl ⟨hp, (Host.Outcome.next.inj h).symm⟩
    · exact .inr ⟨by omega, (step_exec hs (by omega)).symm.trans h⟩

/-! ## Runs -/

theorem runSteps_succ (n : Nat) {s t : State} (h : step s = .next t) : runSteps (n + 1) s = runSteps n t := by
  simp [runSteps, h]

/-- A state whose step is itself is where the run stays. -/
theorem runSteps_fixed {s : State} (h : step s = .next s) (n : Nat) : runSteps n s = .next s := by
  induction n with
  | zero => rfl
  | succ n ih => rw [runSteps_succ n h, ih]

end Sys2Proof.Machine
end

