-- ==== Sys2Proof/Tests/Slice0.lean ====
section
/-! SUPPORT. The model's own tests. Expected results come from the spec: the encodings of `30_encoding.md` R76 written out
bit by bit, and the vectors of `95_test_vectors.md` (named after their ids). At the end, for every obligation with
hypotheses, a state and operands that meet them together. -/

namespace Sys2Proof.Tests
open Sys2Proof Sys2Proof.Machine

/-! ## Decoding (R76): every constructor, from its word -/

theorem test_decode_add : decode Params.default 0b10100000#8 0b00000101#8 0b00110011#8 = .add 0b00000101#8 0b00110011#8 := by decide
theorem test_decode_sub : decode Params.default 0b10100001#8 0b00000101#8 0b00110011#8 = .sub 0b00000101#8 0b00110011#8 := by decide
theorem test_decode_mul : decode Params.default 0b10100010#8 0b00000101#8 0b00110011#8 = .mul 0b00000101#8 0b00110011#8 := by decide
theorem test_decode_div : decode Params.default 0b10100011#8 0b00000101#8 0b00110011#8 = .div 0b00000101#8 0b00110011#8 := by decide
theorem test_decode_mod : decode Params.default 0b10100100#8 0b00000101#8 0b00110011#8 = .mod 0b00000101#8 0b00110011#8 := by decide
theorem test_decode_inc : decode Params.default 0b01100101#8 0b00000101#8 0b00110011#8 = .inc 0b00000101#8 := by decide
theorem test_decode_dec : decode Params.default 0b01100110#8 0b00000101#8 0b00110011#8 = .dec 0b00000101#8 := by decide
theorem test_decode_cmp : decode Params.default 0b10100111#8 0b00000101#8 0b00110011#8 = .cmp 0b00000101#8 0b00110011#8 := by decide
theorem test_decode_and : decode Params.default 0b10101000#8 0b00000101#8 0b00110011#8 = .and 0b00000101#8 0b00110011#8 := by decide
theorem test_decode_not : decode Params.default 0b01101001#8 0b00000101#8 0b00110011#8 = .not 0b00000101#8 := by decide
theorem test_decode_or : decode Params.default 0b10101010#8 0b00000101#8 0b00110011#8 = .or 0b00000101#8 0b00110011#8 := by decide
theorem test_decode_xor : decode Params.default 0b10101011#8 0b00000101#8 0b00110011#8 = .xor 0b00000101#8 0b00110011#8 := by decide
theorem test_decode_shl : decode Params.default 0b10101100#8 0b00000101#8 0b00110011#8 = .shl 0b00000101#8 0b00110011#8 := by decide
theorem test_decode_shr : decode Params.default 0b10101101#8 0b00000101#8 0b00110011#8 = .shr 0b00000101#8 0b00110011#8 := by decide
theorem test_decode_hlt : decode Params.default 0b00000001#8 0b00000101#8 0b00110011#8 = .hlt := by decide
theorem test_decode_ldi : decode Params.default 0b10000010#8 0b00000101#8 0b00110011#8 = .ldi 0b00000101#8 0b00110011#8 := by decide
theorem test_decode_prn : decode Params.default 0b01000111#8 0b00000101#8 0b00110011#8 = .prn 0b00000101#8 := by decide
theorem test_decode_push : decode Params.default 0b01000101#8 0b00000101#8 0b00110011#8 = .push 0b00000101#8 := by decide
theorem test_decode_pop : decode Params.default 0b01000110#8 0b00000101#8 0b00110011#8 = .pop 0b00000101#8 := by decide
theorem test_decode_call : decode Params.default 0b01010000#8 0b00000101#8 0b00110011#8 = .call 0b00000101#8 := by decide
theorem test_decode_ret : decode Params.default 0b00010001#8 0b00000101#8 0b00110011#8 = .ret := by decide
theorem test_decode_jmp : decode Params.default 0b01010100#8 0b00000101#8 0b00110011#8 = .jmp 0b00000101#8 := by decide
theorem test_decode_jeq : decode Params.default 0b01010101#8 0b00000101#8 0b00110011#8 = .jeq 0b00000101#8 := by decide
theorem test_decode_jne : decode Params.default 0b01010110#8 0b00000101#8 0b00110011#8 = .jne 0b00000101#8 := by decide
theorem test_decode_jle : decode Params.default 0b01011001#8 0b00000101#8 0b00110011#8 = .jle 0b00000101#8 := by decide
theorem test_decode_jgt : decode fullTableParams 0b01010111#8 0b00000101#8 0b00110011#8 = .jgt 0b00000101#8 := by decide
theorem test_decode_jlt : decode fullTableParams 0b01011000#8 0b00000101#8 0b00110011#8 = .jlt 0b00000101#8 := by decide
theorem test_decode_jge : decode fullTableParams 0b01011010#8 0b00000101#8 0b00110011#8 = .jge 0b00000101#8 := by decide
theorem test_decode_unknownAlu : decode Params.default 0b10100101#8 0#8 1#8 = .unknownAlu 0b10100101#8 := by decide
theorem test_decode_unknownAlu_count3 : decode Params.default 0b11100000#8 0#8 1#8 = .unknownAlu 0b11100000#8 := by decide
theorem test_decode_unknownNonAlu : decode Params.default 0b00000000#8 1#8 2#8 = .unknownNonAlu 0#8 := by decide
theorem test_decode_jgt_absent : decode Params.default 0b01010111#8 3#8 0#8 = .unknownNonAlu 0b01010111#8 := by decide
theorem test_decode_too_short : decodeBytes Params.default [0b00000001#8, 0#8] = .error .fewerThanThreeBytes := rfl
theorem test_encode_ldi : encode (.ldi 0#8 8#8) = [0b10000010#8, 0#8, 8#8] := by decide

/-! ## Words of the opcode table, at reset -/

theorem test_tableWord_add : decodeTableWord 8 0xA0 = some (.add 0#8 0#8) := by decide
theorem test_tableWord_ldi : decodeTableWord 24 0x080082 = some (.ldi 0#8 8#8) := by decide
theorem test_tableWord_drops_high_bits : decodeTableWord 8 0x080082 = some (.ldi 0#8 0#8) := by decide
theorem test_tableWord_jgt : decodeTableWord 16 0x0357 = some (.jgt 3#8) := by decide

/-! ## WellFormed: an ill-formed term for each check -/

theorem smoke_jgt_absent : (Instr.jgt 0#8).wellFormed Params.default = false := by decide
theorem smoke_jlt_absent : (Instr.jlt 0#8).wellFormed Params.default = false := by decide
theorem smoke_jge_absent : (Instr.jge 0#8).wellFormed Params.default = false := by decide
theorem smoke_unknownAlu_bit5_clear : (Instr.unknownAlu 0#8).wellFormed Params.default = false := by decide
theorem smoke_unknownAlu_is_add : (Instr.unknownAlu 0xA0#8).wellFormed Params.default = false := by decide
theorem smoke_unknownNonAlu_bit5_set : (Instr.unknownNonAlu 0x20#8).wellFormed Params.default = false := by decide
theorem smoke_unknownNonAlu_is_ldi : (Instr.unknownNonAlu 0x82#8).wellFormed Params.default = false := by decide
theorem smoke_unknownNonAlu_is_jgt : (Instr.unknownNonAlu 0x57#8).wellFormed fullTableParams = false := by decide

/-! ## One step of a small state -/

/-- The default start state of the vectors, with code at pc. -/
def start (pc : Byte) (code : List Byte) : State :=
  { State.reset with pc := pc, mem := Memory.place [] pc.toNat code }

/-- R0 and R1 set. -/
def withR01 (x y : Byte) (s : State) : State := setReg 0 x (setReg 1 y s)

/-- The next state, if there is one. -/
def nextOf (o : Host.Outcome State Fault Refusal) : Option State :=
  match o with
  | .next t => some t
  | .fault _ => none
  | .refused _ => none

/-- What a test looks at of the state after one step. -/
def seen {α : Type} (f : State → α) (s : State) : Option α := (nextOf (step s)).map f

def flagsOnly (e l g : Bool) : Flags := { e := e, l := l, g := g }

theorem test_A2_add_wraps :
    seen (fun t => (getReg 0 t, t.pc)) (withR01 200#8 100#8 (start 0#8 [0xA0#8, 0x00#8, 0x01#8])) = some (44#8, 3#8) := by decide
theorem test_A4_add_same :
    seen (fun t => (getReg 0 t, t.pc)) (withR01 130#8 0#8 (start 0#8 [0xA0#8, 0x00#8, 0x00#8])) = some (4#8, 3#8) := by decide
theorem test_A5_sub_wraps :
    seen (fun t => (getReg 0 t, t.pc)) (withR01 3#8 5#8 (start 0#8 [0xA1#8, 0x00#8, 0x01#8])) = some (254#8, 3#8) := by decide
theorem test_A9_mul_low_byte :
    seen (fun t => (getReg 0 t, t.pc)) (withR01 200#8 2#8 (start 0#8 [0xA2#8, 0x00#8, 0x01#8])) = some (144#8, 3#8) := by decide
theorem test_A8_mul_max :
    seen (fun t => (getReg 0 t, t.pc)) (withR01 255#8 255#8 (start 0#8 [0xA2#8, 0x00#8, 0x01#8])) = some (1#8, 3#8) := by decide
theorem test_A10_div :
    seen (fun t => (getReg 0 t, t.pc)) (withR01 7#8 2#8 (start 0#8 [0xA3#8, 0x00#8, 0x01#8])) = some (3#8, 3#8) := by decide
theorem test_A15_mod :
    seen (fun t => (getReg 0 t, t.pc)) (withR01 17#8 5#8 (start 0#8 [0xA4#8, 0x00#8, 0x01#8])) = some (2#8, 3#8) := by decide
theorem test_A22_and :
    seen (fun t => (getReg 0 t, t.pc)) (withR01 204#8 170#8 (start 0#8 [0xA8#8, 0x00#8, 0x01#8])) = some (136#8, 3#8) := by decide
theorem test_A23_or :
    seen (fun t => (getReg 0 t, t.pc)) (withR01 204#8 170#8 (start 0#8 [0xAA#8, 0x00#8, 0x01#8])) = some (238#8, 3#8) := by decide
theorem test_A24_xor :
    seen (fun t => (getReg 0 t, t.pc)) (withR01 204#8 170#8 (start 0#8 [0xAB#8, 0x00#8, 0x01#8])) = some (102#8, 3#8) := by decide
theorem test_A34_shl_by_8 :
    seen (fun t => (getReg 0 t, t.pc)) (withR01 1#8 8#8 (start 0#8 [0xAC#8, 0x00#8, 0x01#8])) = some (0#8, 3#8) := by decide
theorem test_A35_shl_loses_bit7 :
    seen (fun t => (getReg 0 t, t.pc)) (withR01 129#8 1#8 (start 0#8 [0xAC#8, 0x00#8, 0x01#8])) = some (2#8, 3#8) := by decide
theorem test_A35d_shr_logical :
    seen (fun t => (getReg 0 t, t.pc)) (withR01 128#8 7#8 (start 0#8 [0xAD#8, 0x00#8, 0x01#8])) = some (1#8, 3#8) := by decide
theorem test_A35e_shr_by_200 :
    seen (fun t => (getReg 0 t, t.pc)) (withR01 255#8 200#8 (start 0#8 [0xAD#8, 0x00#8, 0x01#8])) = some (0#8, 3#8) := by decide
theorem test_A13_div_by_zero :
    seen (fun t => (t.status, t.pc, getReg 0 t)) (withR01 9#8 0#8 (start 0#8 [0xA3#8, 0x00#8, 0x01#8])) = some (.faulted (.divideByZero 0#8 1#8), 0#8, 9#8) := by decide
theorem test_A17_mod_by_zero :
    seen (fun t => (t.status, t.pc, getReg 0 t)) (withR01 5#8 0#8 (start 0#8 [0xA4#8, 0x00#8, 0x01#8])) = some (.faulted (.divideByZero 0#8 1#8), 0#8, 5#8) := by decide
theorem test_A18_inc_wraps :
    seen (fun t => (getReg 0 t, t.pc)) (withR01 255#8 0#8 (start 0#8 [0x65#8, 0x00#8])) = some (0#8, 2#8) := by decide
theorem test_A19_inc_ignores_b :
    seen (fun t => (getReg 0 t, t.pc)) (withR01 1#8 0#8 (start 0#8 [0x65#8, 0x00#8, 0x63#8])) = some (2#8, 2#8) := by decide
theorem test_A21_dec_wraps :
    seen (fun t => (getReg 0 t, t.pc)) (withR01 0#8 0#8 (start 0#8 [0x66#8, 0x00#8])) = some (255#8, 2#8) := by decide
theorem test_A30_not :
    seen (fun t => (getReg 0 t, t.pc)) (withR01 204#8 0#8 (start 0#8 [0x69#8, 0x00#8])) = some (0x33#8, 2#8) := by decide
theorem test_A37_cmp_unsigned :
    seen (fun t => (t.fl, t.pc)) (withR01 255#8 0#8 (start 0#8 [0xA7#8, 0x00#8, 0x01#8])) = some (flagsOnly false false true, 3#8) := by decide
theorem test_A40_cmp_fault_keeps_flags :
    seen (fun t => (t.status, t.fl)) (setFl (flagsOnly false true false) (start 0#8 [0xA7#8, 0x00#8, 0x08#8])) = some (.faulted (.registerIndex 8#8), flagsOnly false true false) := by decide
theorem test_A41_index_a_first :
    seen (fun t => (t.status, t.pc)) (start 0#8 [0xA0#8, 0x08#8, 0x09#8]) = some (.faulted (.registerIndex 8#8), 0#8) := by decide
theorem test_A43_index_before_zero :
    seen (fun t => t.status) (start 0#8 [0xA3#8, 0x00#8, 0xC8#8]) = some (.faulted (.registerIndex 200#8)) := by decide
theorem test_A45_opcode_before_index :
    seen (fun t => (t.status, t.pc)) (start 0#8 [0xA5#8, 0x63#8, 0x63#8]) = some (.faulted (.unsupportedOperation 0xA5#8), 0#8) := by decide
theorem test_A47_whole_byte :
    seen (fun t => t.status) (start 0#8 [0x20#8, 0x00#8, 0x01#8]) = some (.faulted (.unsupportedOperation 0x20#8)) := by decide
theorem test_H1_ldi :
    seen (fun t => (getReg 0 t, t.pc)) (start 0#8 [0x82#8, 0x00#8, 0x08#8]) = some (8#8, 3#8) := by decide
theorem test_H2_ldi_r7_is_sp :
    seen (fun t => (getSp t, getReg 7 t)) (start 0#8 [0x82#8, 0x07#8, 0x10#8]) = some (16#8, 16#8) := by decide
theorem test_H4_prn :
    seen (fun t => (t.out, t.pc)) (withR01 255#8 0#8 (start 0#8 [0x47#8, 0x00#8])) = some ([255#8], 2#8) := by decide
theorem test_H5_prn_fault :
    seen (fun t => (t.out, t.status)) (start 0#8 [0x47#8, 0x08#8]) = some ([], .faulted (.registerIndex 8#8)) := by decide
theorem test_H7_hlt_at_253 :
    seen (fun t => (t.status, t.pc)) (start 253#8 [0x01#8]) = some (.halted, 254#8) := by decide
theorem test_H8_hlt_at_254 :
    seen (fun t => (t.status, t.pc)) (start 254#8 [0x01#8]) = some (.faulted (.memoryBounds 256), 254#8) := by decide
theorem test_S2_push_wraps :
    seen (fun t => (getSp t, t.mem.read 255)) (setSp 0#8 (withR01 42#8 0#8 (start 0#8 [0x45#8, 0x00#8]))) = some (255#8, 42#8) := by decide
theorem test_S3_push_r7 :
    seen (fun t => (getSp t, t.mem.read 243)) (start 0#8 [0x45#8, 0x07#8]) = some (243#8, 243#8) := by decide
theorem test_S6_pop_wraps :
    seen (fun t => (getReg 1 t, getSp t)) (setMem 255 9#8 (setSp 255#8 (start 0#8 [0x46#8, 0x01#8]))) = some (9#8, 0#8) := by decide
theorem test_S7_pop_r7 :
    seen (fun t => (getSp t, t.mem.read 243)) (setMem 243 42#8 (setSp 243#8 (start 0#8 [0x46#8, 0x07#8]))) = some (43#8, 42#8) := by decide
theorem test_C1_call :
    seen (fun t => (getSp t, t.mem.read 243, t.pc)) (setReg 1 20#8 (start 10#8 [0x50#8, 0x01#8])) = some (243#8, 12#8, 20#8) := by decide
theorem test_C2_call_r7 :
    seen (fun t => (t.mem.read 243, t.pc)) (start 10#8 [0x50#8, 0x07#8]) = some (12#8, 243#8) := by decide
theorem test_C5_ret_wraps :
    seen (fun t => (t.pc, getSp t)) (setMem 255 12#8 (setSp 255#8 (start 20#8 [0x11#8]))) = some (12#8, 0#8) := by decide
theorem test_C7_jmp :
    seen (fun t => t.pc) (setReg 2 16#8 (start 0#8 [0x54#8, 0x02#8])) = some 16#8 := by decide
theorem test_C10_jeq :
    seen (fun t => t.pc) (setFl (flagsOnly true false false) (setReg 3 40#8 (start 7#8 [0x55#8, 0x03#8]))) = some 40#8 := by decide
theorem test_C11_jeq_falls :
    seen (fun t => t.pc) (setFl (flagsOnly false true false) (setReg 3 40#8 (start 7#8 [0x55#8, 0x03#8]))) = some 9#8 := by decide
theorem test_C13_jne :
    seen (fun t => t.pc) (setFl (flagsOnly false false false) (setReg 3 40#8 (start 7#8 [0x56#8, 0x03#8]))) = some 40#8 := by decide
theorem test_C14_jne_falls :
    seen (fun t => t.pc) (setFl (flagsOnly true false false) (setReg 3 40#8 (start 7#8 [0x56#8, 0x03#8]))) = some 9#8 := by decide
theorem test_C16_jle_equal :
    seen (fun t => t.pc) (setFl (flagsOnly true false false) (setReg 3 40#8 (start 7#8 [0x59#8, 0x03#8]))) = some 40#8 := by decide
theorem test_C17_jle_falls :
    seen (fun t => t.pc) (setFl (flagsOnly false false true) (setReg 3 40#8 (start 7#8 [0x59#8, 0x03#8]))) = some 9#8 := by decide
theorem test_C19_jgt :
    seen (fun t => t.pc) { (setFl (flagsOnly false false true) (setReg 3 40#8 (start 7#8 [0x57#8, 0x03#8]))) with params := fullTableParams } = some 40#8 := by decide
theorem test_C20_jlt :
    seen (fun t => t.pc) { (setFl (flagsOnly false true false) (setReg 3 40#8 (start 7#8 [0x58#8, 0x03#8]))) with params := fullTableParams } = some 40#8 := by decide
theorem test_C21_jlt_falls :
    seen (fun t => t.pc) { (setFl (flagsOnly true false false) (setReg 3 40#8 (start 7#8 [0x58#8, 0x03#8]))) with params := fullTableParams } = some 9#8 := by decide
theorem test_C22_jge_equal :
    seen (fun t => t.pc) { (setFl (flagsOnly true false false) (setReg 3 40#8 (start 7#8 [0x5A#8, 0x03#8]))) with params := fullTableParams } = some 40#8 := by decide
theorem test_C23_jge_falls :
    seen (fun t => t.pc) { (setFl (flagsOnly false true false) (setReg 3 40#8 (start 7#8 [0x5A#8, 0x03#8]))) with params := fullTableParams } = some 9#8 := by decide
theorem test_C12_jeq_index_checked :
    seen (fun t => (t.status, t.pc)) (start 7#8 [0x55#8, 0x08#8]) = some (.faulted (.registerIndex 8#8), 7#8) := by decide
theorem test_C24_jgt_absent_hangs :
    seen (fun t => t.pc) (setFl (flagsOnly false false true) (setReg 3 40#8 (start 7#8 [0x57#8, 0x03#8]))) = some 7#8 := by decide
theorem test_E3_unknown_skips_3 :
    seen (fun t => (t.status, t.pc)) (start 0#8 [0x83#8, 0x00#8, 0x01#8]) = some (.running, 3#8) := by decide
theorem test_E4_unknown_skips_4 :
    seen (fun t => t.pc) (start 0#8 [0xC0#8, 0x00#8, 0x01#8]) = some 4#8 := by decide
theorem test_E2_unknown_faults :
    seen (fun t => (t.status, t.pc)) { (start 0#8 [0x00#8]) with params := { Params.default with unknownPolicy := .fault } } = some (.faulted (.illegalInstruction 0#8), 0#8) := by decide

/-- R26: with a separate SP cell, PUSH R7 pushes R7 and moves SP alone. -/
theorem test_push_r7_separate_sp :
    seen (fun t => (getSp t, getReg 7 t, t.mem.read 243))
      (setReg 7 5#8 { (start 0#8 [0x45#8, 7#8]) with params := { Params.default with spAliasesR7 := false } })
      = some (243#8, 5#8, 5#8) := by decide

/-- Writing 0 to a listed cell removes its entry, so equal memories are equal lists. -/
theorem test_write_zero_removes : Memory.write (Memory.write [] 9 1#8) 9 0#8 = [] := by decide

theorem test_reset_mem_wf : State.reset.mem.wf = true := by decide

theorem test_fetchWord_jge : nextOf (step (State.reset.withFetchWord 16 0x035A)) =
    nextOf (exec (.jge 3#8) (State.reset.withFetchWord 16 0x035A)) := by decide

theorem test_fetchWord_params_kept : (State.reset.withFetchWord 8 0xA0).params = Params.default := by decide

/-- R35, R250: the trace's flag byte and bytes at the top of memory. -/
theorem test_trace :
    (fun t : Trace => (t.flags, t.bytes)) (trace (setFl (flagsOnly false true false) (start 254#8 [1#8]))) =
      (4#8, [some 1#8, some 0#8, none]) := by decide

/-- R142, R143: 255 prints as "255", each entry on a line of its own. -/
theorem test_renderOut : renderOut { start 0#8 [] with out := [255#8, 8#8] } = "255\n8\n" := by decide

/-- R82. -/
theorem test_assembly : assembly (.ldi 0#8 8#8) = some "LDI R0, 8" ∧ assembly (.jmp 8#8) = none := by decide

/-! ## Witnesses: for every obligation with hypotheses, a state and operands that meet them, at a boundary value -/

/-- The start state with UNKNOWN_OPCODE_POLICY = Fault. -/
def startFault (pc : Byte) (code : List Byte) : State :=
  { start pc code with params := { Params.default with unknownPolicy := .fault } }

/-- The start state with a separate SP cell. -/
def startCell (pc : Byte) (code : List Byte) : State :=
  { start pc code with params := { Params.default with spAliasesR7 := false } }

/-- The start state after a step or an execution that has a next state. -/
def after (o : Host.Outcome State Fault Refusal) : State := (nextOf o).getD State.reset

theorem witness_BootLeavesSpecValues :
    (List.replicate 256 1#8).length ≤ 256 ∧ 256 < (List.replicate 257 1#8).length ∧ (0 : Fin 8) ≠ 7 ∧
      Params.default.spAliasesR7 = true ∧ (startCell 0#8 []).params.spAliasesR7 = false :=
  ⟨Nat.le_of_eq List.length_replicate, by rw [List.length_replicate]; decide, by decide, rfl, rfl⟩

theorem witness_StepRunsDecodedInstruction :
    (start 253#8 [1#8]).status = .running ∧ (start 253#8 [1#8]).pc.toNat ≤ 253 ∧
      decodeBytes (start 253#8 [1#8]).params [(start 253#8 [1#8]).mem.read 253, (start 253#8 [1#8]).mem.read 254,
        (start 253#8 [1#8]).mem.read 255] = .ok .hlt :=
  ⟨rfl, by decide, rfl⟩

theorem witness_StepRunsEncodedInstruction :
    (start 253#8 [0xA0#8, 1#8, 2#8]).status = .running ∧ (start 253#8 [0xA0#8, 1#8, 2#8]).pc.toNat ≤ 253 ∧
      (Instr.add 1#8 2#8).wellFormed Params.default = true ∧
      (∀ k v, (encode (Instr.add 1#8 2#8))[k]? = some v → (start 253#8 [0xA0#8, 1#8, 2#8]).mem.read (253 + k) = v) := by
  refine ⟨rfl, by decide, rfl, fun k v h => ?_⟩
  match k, h with
  | 0, h => cases h; rfl
  | 1, h => cases h; rfl
  | 2, h => cases h; rfl

theorem witness_NoStepAfterTheEnd :
    (setStatus .halted State.reset).status = .halted ∧
      (setStatus (.faulted (.memoryBounds 256)) State.reset).status = .faulted (.memoryBounds 256) := by decide

theorem witness_AccessesAreBoundsChecked :
    (255 < 256 ∧ 256 ≤ 256) ∧ (start 254#8 []).status = .running ∧ 254 ≤ (start 254#8 []).pc.toNat := by decide

theorem witness_FetchSeesPushedByte :
    pushAddress (setSp 254#8 (start 0#8 [])) = 253 ∧
      (nextOf (exec (.push (regByte 0)) (setSp 254#8 (start 0#8 [])))).isSome = true := by decide

theorem witness_FaultsArePrecise :
    (start 254#8 []).status = .running ∧ (nextOf (step (start 254#8 []))).isSome = true ∧
      (after (step (start 254#8 []))).status = .faulted (.memoryBounds 256) := by decide

theorem witness_FirstFaultIsRaised :
    (start 253#8 [0xA3#8, 0#8, 1#8]).status = .running ∧
      stepFault (start 253#8 [0xA3#8, 0#8, 1#8]) = some (.divideByZero 0#8 1#8) ∧
      stepFault (start 253#8 [1#8]) = none := by decide

theorem witness_IndexFaultsAreExact :
    State.reset.status = .running ∧ regOperandA (.add 7#8 8#8) = some 7#8 ∧ (7#8 : Byte).toNat < 8 ∧
      regOperandB (.add 7#8 8#8) = some 8#8 ∧ 8 ≤ (8#8 : Byte).toNat ∧ regOperandA (.prn 8#8) = some 8#8 := by decide

theorem witness_DecodeOfEncode :
    (Instr.jge 255#8).wellFormed fullTableParams = true ∧ (Instr.unknownNonAlu 0#8).wellFormed Params.default = true ∧
      2 ≤ [0#8, 0#8].length := by decide

theorem witness_UnusedOperandBytesAreIgnored : operandCount 0x65#8 ≤ 1 ∧ operandCount 0x01#8 = 0 := by decide

theorem witness_AdvanceFollowsOpcodeBits :
    State.reset.status = .running ∧ (nextOf (exec (.inc 0#8) State.reset)).isSome = true ∧
      (after (exec (.inc 0#8) State.reset)).status = .running ∧ setsPc (Instr.inc 0#8).opcode = false ∧
      (nextOf (exec (.unknownNonAlu 0x10#8) State.reset)).isSome = true ∧
      (after (exec (.unknownNonAlu 0x10#8) State.reset)).status = .running ∧ setsPc 0x10#8 = true := by decide

theorem witness_UnknownAluOpcodeFaults :
    (start 253#8 [0xA5#8]).status = .running ∧ (start 253#8 [0xA5#8]).pc.toNat ≤ 253 ∧
      ((start 253#8 [0xA5#8]).mem.read 253).getLsbD 5 = true ∧
      (start 253#8 [0xA5#8]).mem.read 253 ∉ [0xA0#8, 0xA1#8, 0xA2#8, 0xA3#8, 0xA4#8, 0x65#8, 0x66#8, 0xA7#8, 0xA8#8,
        0x69#8, 0xAA#8, 0xAB#8, 0xAC#8, 0xAD#8] := by decide

theorem witness_UnknownNonAluFollowsPolicy :
    (start 0#8 []).params.unknownPolicy = .skip ∧ (0xC0#8 : Byte).getLsbD 4 = false ∧
      (0x10#8 : Byte).getLsbD 4 = true ∧ (startFault 0#8 []).params.unknownPolicy = .fault := by decide

theorem witness_UnknownSetsPcOpcodeHangs :
    (start 253#8 [0x10#8]).status = .running ∧ (start 253#8 [0x10#8]).params.unknownPolicy = .skip ∧
      (start 253#8 [0x10#8]).pc.toNat ≤ 253 ∧ instrAtPc (start 253#8 [0x10#8]) = .unknownNonAlu 0x10#8 ∧
      setsPc 0x10#8 = true ∧ Params.default.hasExtraJcc = false := by decide

theorem witness_RunningOffTheEndFaults :
    ((start 254#8 []).status = .running ∧ (start 254#8 []).pc.toNat ≤ 254 ∧
      (∀ a, (start 254#8 []).pc.toNat ≤ a → a < 256 → (start 254#8 []).mem.read a = 0#8)) ∧
    (start 254#8 []).params.unknownPolicy = .skip ∧
    ((startFault 253#8 []).params.unknownPolicy = .fault ∧ (startFault 253#8 []).pc.toNat ≤ 253 ∧
      (∀ a, 253 ≤ a → a < 256 → (startFault 253#8 []).mem.read a = 0#8)) :=
  ⟨⟨rfl, by decide, fun _ _ _ => rfl⟩, rfl, rfl, by decide, fun _ _ _ => rfl⟩

theorem witness_HaltUnderFaultIsHaltUnderSkip :
    (startFault 0#8 [1#8]).params.unknownPolicy = .fault ∧
      (nextOf (runSteps 1 (startFault 0#8 [1#8]))).isSome = true ∧
      (after (runSteps 1 (startFault 0#8 [1#8]))).status = .halted := by decide

theorem witness_AddSubMulResults : 8 ≤ (8#8 : Byte).toNat ∧ Instr.mul 8#8 0#8 ∈ [Instr.add 8#8 0#8, .sub 8#8 0#8, .mul 8#8 0#8] ∧
    Instr.sub (regByte 7) 255#8 ∈ [Instr.add (regByte 7) 255#8, .sub (regByte 7) 255#8, .mul (regByte 7) 255#8] := by
  decide

theorem witness_DivModResults :
    getReg 1 (withR01 9#8 1#8 State.reset) ≠ 0#8 ∧ getReg 1 (withR01 9#8 0#8 State.reset) = 0#8 ∧
      8 ≤ (8#8 : Byte).toNat ∧ Instr.mod 8#8 0#8 ∈ [Instr.div 8#8 0#8, .mod 8#8 0#8] ∧
      Instr.div (regByte 0) 8#8 ∈ [Instr.div (regByte 0) 8#8, .mod (regByte 0) 8#8] := by decide

theorem witness_DivisionLaw :
    getReg 1 (withR01 255#8 1#8 State.reset) ≠ 0#8 ∧ getReg 1 (withR01 255#8 0#8 State.reset) = 0#8 ∧
      Instr.mod (regByte 0) (regByte 1) ∈ [Instr.div (regByte 0) (regByte 1), .mod (regByte 0) (regByte 1)] := by decide

theorem witness_IncDecNotResults :
    8 ≤ (8#8 : Byte).toNat ∧ Instr.not 8#8 ∈ [Instr.inc 8#8, .dec 8#8, .not 8#8] ∧
      (nextOf (exec (.not (regByte 0)) State.reset)).isSome = true ∧
      (nextOf (exec (.not (regByte 0)) (after (exec (.not (regByte 0)) State.reset)))).isSome = true := by decide

theorem witness_BitwiseResults :
    8 ≤ (8#8 : Byte).toNat ∧ Instr.xor 8#8 0#8 ∈ [Instr.and 8#8 0#8, .or 8#8 0#8, .xor 8#8 0#8] ∧
      Instr.or (regByte 0) 8#8 ∈ [Instr.and (regByte 0) 8#8, .or (regByte 0) 8#8, .xor (regByte 0) 8#8] := by decide

theorem witness_ShiftResults :
    8 ≤ (8#8 : Byte).toNat ∧ Instr.shr 8#8 0#8 ∈ [Instr.shl 8#8 0#8, .shr 8#8 0#8] ∧
      Instr.shl (regByte 0) 8#8 ∈ [Instr.shl (regByte 0) 8#8, .shr (regByte 0) 8#8] := by decide

theorem witness_CmpResult : 8 ≤ (8#8 : Byte).toNat ∧ 8 ≤ (255#8 : Byte).toNat := by decide

theorem witness_OnlyCmpWritesFlags :
    (∀ a b, Instr.inc 0#8 ≠ .cmp a b) ∧ (nextOf (exec (.inc 0#8) State.reset)).isSome = true ∧
      (nextOf (exec (.cmp (regByte 0) (regByte 7)) State.reset)).isSome = true :=
  ⟨nofun, by decide, by decide⟩

theorem witness_HltResult :
    (nextOf (exec .hlt State.reset)).isSome = true ∧ (start 254#8 [1#8]).status = .running ∧
      254 ≤ (start 254#8 [1#8]).pc.toNat ∧ (start 254#8 [1#8]).mem.read 254 = 1#8 := by decide

theorem witness_OnlyHltHalts :
    (start 253#8 [1#8]).status = .running ∧ (nextOf (step (start 253#8 [1#8]))).isSome = true ∧
      (after (step (start 253#8 [1#8]))).status = .halted := by decide

theorem witness_LdiResult :
    State.reset.params.spAliasesR7 = true ∧ (nextOf (exec (.ldi (regByte 7) 255#8) State.reset)).isSome = true ∧
      8 ≤ (8#8 : Byte).toNat := by decide

theorem witness_PrnResult : 8 ≤ (8#8 : Byte).toNat := by decide

theorem witness_OutputIsNeverRemoved :
    (nextOf (runSteps 2 (start 0#8 [0x47#8, 0#8, 1#8]))).isSome = true ∧
      (after (runSteps 2 (start 0#8 [0x47#8, 0#8, 1#8]))).out = [0#8] := by decide

theorem witness_SpIsR7 :
    (start 0#8 []).params.spAliasesR7 = true ∧ (startCell 0#8 []).params.spAliasesR7 = false := by decide

theorem witness_PushResult : 8 ≤ (8#8 : Byte).toNat := by decide

theorem witness_PopResult : 8 ≤ (8#8 : Byte).toNat := by decide

theorem witness_StackOperandR7 :
    (nextOf (exec (.push (regByte 7)) (start 0#8 []))).isSome = true ∧
      (nextOf (exec (.pop (regByte 7)) (start 0#8 []))).isSome = true ∧
      (start 0#8 []).params.spAliasesR7 = true ∧
      (nextOf (exec (.push (regByte 7)) (startCell 0#8 []))).isSome = true ∧
      (nextOf (exec (.pop (regByte 7)) (startCell 0#8 []))).isSome = true ∧
      (startCell 0#8 []).params.spAliasesR7 = false := by decide

theorem witness_PushPopIsLifo :
    (6 : Fin 8) ≠ 7 ∧ (0 : Fin 8) ≠ 7 ∧ (6 : Fin 8) ≠ 0 ∧
      getSp (after (exec (.push (regByte 6)) (start 0#8 []))) = getSp (setSp 243#8 (start 0#8 [])) ∧
      (setMem 243 0#8 (setSp 243#8 (start 0#8 []))).mem.read 243 =
        (after (exec (.push (regByte 6)) (start 0#8 []))).mem.read 243 := by decide

theorem witness_CallResult : 8 ≤ (8#8 : Byte).toNat := by decide

theorem witness_CallReturnsToNextInstruction :
    getSp (after (exec (.call (regByte 0)) (start 253#8 []))) = getSp (setSp 243#8 (start 0#8 [])) ∧
      (setMem 243 255#8 (setSp 243#8 (start 0#8 []))).mem.read 243 =
        (after (exec (.call (regByte 0)) (start 253#8 []))).mem.read 243 := by decide

theorem witness_JmpResult :
    8 ≤ (8#8 : Byte).toNat ∧ (setReg 2 253#8 (start 253#8 [0x54#8, 2#8])).status = .running ∧
      (setReg 2 253#8 (start 253#8 [0x54#8, 2#8])).pc.toNat ≤ 253 ∧
      instrAtPc (setReg 2 253#8 (start 253#8 [0x54#8, 2#8])) = .jmp (regByte 2) ∧
      getReg 2 (setReg 2 253#8 (start 253#8 [0x54#8, 2#8])) = 253#8 := by decide

theorem witness_JeqJneResults : 8 ≤ (8#8 : Byte).toNat ∧ Instr.jne 8#8 ∈ [Instr.jeq 8#8, .jne 8#8] := by decide

theorem witness_OrderedJumpResults :
    8 ≤ (8#8 : Byte).toNat ∧ Instr.jge 8#8 ∈ [Instr.jle 8#8, .jgt 8#8, .jlt 8#8, .jge 8#8] ∧
      fullTableParams.hasExtraJcc = true ∧ Params.default.hasExtraJcc = false := by decide

theorem witness_JumpsFollowUnsignedCompare :
    ∃ rel : Nat → Nat → Bool, (Instr.jle (regByte 3), rel) ∈ [(Instr.jle (regByte 3), fun x y : Nat => decide (x ≤ y))] :=
  ⟨_, List.mem_singleton.mpr rfl⟩

theorem witness_FrameOfRegisterWriters :
    Instr.ldi 7#8 1#8 ∈ [Instr.inc 7#8, .ldi 7#8 1#8] ∧ (nextOf (exec (.ldi 7#8 1#8) State.reset)).isSome = true ∧
      (0 : Fin 8).val ≠ (7#8 : Byte).toNat := by decide

theorem witness_FrameOfRegisterReaders :
    Instr.hlt ∈ [Instr.cmp 0#8 1#8, .hlt] ∧ (nextOf (exec .hlt State.reset)).isSome = true ∧
      (nextOf (exec (.prn 0#8) State.reset)).isSome = true ∧ Instr.prn 0#8 ≠ .cmp 0#8 1#8 ∧ Instr.prn 0#8 ≠ .hlt ∧
      Instr.hlt ≠ .prn 0#8 := by decide

theorem witness_FrameOfPushAndCall :
    Instr.push 7#8 ∈ [Instr.push 7#8, .call 7#8] ∧ (nextOf (exec (.push 7#8) State.reset)).isSome = true ∧
      243 = pushAddress State.reset ∧ 242 ≠ pushAddress State.reset ∧ (6 : Fin 8) ≠ 7 ∧
      State.reset.params.spAliasesR7 = true := by decide

theorem witness_FrameOfPopAndRet :
    Instr.pop 6#8 ∈ [Instr.pop 6#8, .ret] ∧ (nextOf (exec (.pop 6#8) State.reset)).isSome = true ∧
      (nextOf (exec .ret State.reset)).isSome = true ∧ (5 : Fin 8) ≠ 7 ∧ (5 : Fin 8).val ≠ (6#8 : Byte).toNat := by
  decide

theorem witness_StepKeepsInvariant :
    Inv (start 253#8 [0x45#8, 0#8, 9#8]) ∧ (nextOf (step (start 253#8 [0x45#8, 0#8, 9#8]))).isSome = true :=
  ⟨⟨by decide, by decide⟩, by decide⟩

theorem witness_BootMeetsInvariant : (boot Params.default gprResetDefault [1#8]).isSome = true := by decide

theorem witness_FlagsByteLayout : 3 ≤ 7 ∧ 7 < 8 := by decide

end Sys2Proof.Tests
end

/-! # Proofs about the state (`10_state.md`)

First what one execution can do, said once: `exec_result` gives the fault that ends it, by the priority order of
`instrFault`, or the change it makes. Each statement about every instruction is then a case analysis of `Change`. -/

namespace Sys2Proof.Machine

/-! ## The engine's advance changes PC alone -/

@[simp] theorem advance_params (ir : Byte) (s : State) : (advance ir s).params = s.params := by
  unfold advance; split <;> rfl
@[simp] theorem advance_spCell (ir : Byte) (s : State) : (advance ir s).spCell = s.spCell := by
  unfold advance; split <;> rfl
@[simp] theorem advance_fl (ir : Byte) (s : State) : (advance ir s).fl = s.fl := by
  unfold advance; split <;> rfl
@[simp] theorem advance_mem (ir : Byte) (s : State) : (advance ir s).mem = s.mem := by
  unfold advance; split <;> rfl
@[simp] theorem advance_status (ir : Byte) (s : State) : (advance ir s).status = s.status := by
  unfold advance; split <;> rfl
@[simp] theorem advance_out (ir : Byte) (s : State) : (advance ir s).out = s.out := by
  unfold advance; split <;> rfl
@[simp] theorem getReg_advance (i : Fin 8) (ir : Byte) (s : State) : getReg i (advance ir s) = getReg i s := by
  unfold advance; split <;> rfl

/-! ## What an execution can do -/

/-- The operand byte whose register is all that the instruction writes beside PC: the ALU operations but CMP, and LDI
(R100, R141). -/
def writtenOperand : Instr → Option Byte
  | .add a _ | .sub a _ | .mul a _ | .div a _ | .mod a _ | .and a _ | .or a _ | .xor a _ | .shl a _ | .shr a _
  | .inc a | .dec a | .not a | .ldi a _ => some a
  | _ => none

/-- The operand byte of the jumps, which write PC alone (R174, R176). -/
def jumpOperand : Instr → Option Byte
  | .jmp a | .jeq a | .jne a | .jle a | .jgt a | .jlt a | .jge a => some a
  | _ => none

/-- `Change s i s'`: without a fault, the rule of the instruction i makes s' of s, before the engine's advance. The value
of an ALU operation and the target of a jump are left to the instruction's own law. -/
inductive Change (s : State) : Instr → State → Prop
  | writeReg {i : Instr} (r : Fin 8) (v : Byte) (h : writtenOperand i = some (regByte r)) : Change s i (setReg r v s)
  | cmp (p q : Fin 8) :
      Change s (.cmp (regByte p) (regByte q)) (setFl (compareFlags (getReg p s) (getReg q s)) s)
  | hlt : Change s .hlt (setStatus .halted s)
  | prn (r : Fin 8) : Change s (.prn (regByte r)) (output (getReg r s) s)
  | push (r : Fin 8) : Change s (.push (regByte r))
      (setMem (pushAddress s) (getReg r (setSp (decrementedSp s) s)) (setSp (decrementedSp s) s))
  | pop (r : Fin 8) : Change s (.pop (regByte r))
      (setSp (incrementedSp (setReg r (s.mem.read (getSp s).toNat) s)) (setReg r (s.mem.read (getSp s).toNat) s))
  | call (r : Fin 8) : Change s (.call (regByte r))
      (setPc (getReg r (setSp (decrementedSp s) s))
        (setMem (pushAddress s) (pcAfterTwoBytes s) (setSp (decrementedSp s) s)))
  | ret : Change s .ret (setSp (incrementedSp s) (setPc (s.mem.read (getSp s).toNat) s))
  | jump {i : Instr} (r : Fin 8) (v : Byte) (h : jumpOperand i = some (regByte r)) : Change s i (setPc v s)
  | skip (ir : Byte) : Change s (.unknownNonAlu ir) s

/-- `Result s i t`: executing i in s ends in t, by the first fault in the order of R234 or by a change and the engine's
advance. -/
inductive Result (s : State) (i : Instr) : State → Prop
  | fault {k : FaultKind} (h : instrFault i s = some k) : Result s i (setStatus (.faulted k) s)
  | done {s' : State} (h : instrFault i s = none) (c : Change s i s') : Result s i (advance i.opcode s')

/-! ### The faults of an instruction with a legal opcode, operand by operand -/

@[simp] theorem indexFault_none : indexFault none = none := rfl

@[simp] theorem indexFault_regByte (r : Fin 8) : indexFault (some (regByte r)) = none := by
  simp [indexFault]

theorem indexFault_outside {a : Byte} (h : 8 ≤ a.toNat) : indexFault (some a) = some (.registerIndex a) := by
  simp [indexFault, h]

/-- Only the unknown opcodes, which have no operand, raise an opcode fault. -/
theorem opcodeFault_of_regOperandA {i : Instr} {a : Byte} (h : regOperandA i = some a) (p : Params) :
    opcodeFault p i = none := by
  cases i with
  | unknownAlu ir => cases h
  | unknownNonAlu ir => cases h
  | _ => rfl

/-- An instruction that accesses no register through a accesses none through b. -/
theorem regOperandB_of_no_regOperandA {i : Instr} (h : regOperandA i = none) : regOperandB i = none := by
  cases i with
  | hlt => rfl
  | ret => rfl
  | unknownAlu ir => rfl
  | unknownNonAlu ir => rfl
  | _ => cases h

theorem instrFault_outside_a {i : Instr} {a : Byte} (ha : regOperandA i = some a) (h : 8 ≤ a.toNat) (s : State) :
    instrFault i s = some (.registerIndex a) := by
  simp [instrFault, opcodeFault_of_regOperandA ha, ha, indexFault_outside h]

theorem instrFault_outside_b {i : Instr} {r : Fin 8} {b : Byte} (ha : regOperandA i = some (regByte r))
    (hb : regOperandB i = some b) (h : 8 ≤ b.toNat) (s : State) : instrFault i s = some (.registerIndex b) := by
  simp [instrFault, opcodeFault_of_regOperandA ha, ha, hb, indexFault_outside h]

/-- With both registers below 8, only the divisor is left to check. -/
theorem instrFault_regs {i : Instr} {r : Fin 8} (ha : regOperandA i = some (regByte r))
    (hb : indexFault (regOperandB i) = none) (s : State) : instrFault i s = divisorFault s i := by
  simp [instrFault, opcodeFault_of_regOperandA ha, ha, hb]

theorem instrFault_unknownNonAlu (ir : Byte) (s : State) : instrFault (.unknownNonAlu ir) s =
    if s.params.unknownPolicy = .fault then some (.illegalInstruction ir) else none := by
  simp [instrFault, opcodeFault, regOperandA, regOperandB, divisorFault]

/-! ### The executions that are of no shared form -/

theorem execCmp_ok (p q : Fin 8) (s : State) : execCmp (regByte p) (regByte q) s =
    .next (advance opCmp (setFl (compareFlags (getReg p s) (getReg q s)) s)) := by
  simp [execCmp, bind, Except.bind]

theorem execCmp_outside_a {a : Byte} (h : 8 ≤ a.toNat) (b : Byte) (s : State) :
    execCmp a b s = .next (setStatus (.faulted (.registerIndex a)) s) := by
  simp [execCmp, bind, Except.bind, readReg_outside h]

theorem execCmp_outside_b (p : Fin 8) {b : Byte} (h : 8 ≤ b.toNat) (s : State) :
    execCmp (regByte p) b s = .next (setStatus (.faulted (.registerIndex b)) s) := by
  simp [execCmp, bind, Except.bind, readReg_outside h]

theorem execLdi_ok (r : Fin 8) (imm : Byte) (s : State) :
    execLdi (regByte r) imm s = .next (advance opLdi (setReg r imm s)) := by
  simp [execLdi]

theorem execLdi_outside {a : Byte} (h : 8 ≤ a.toNat) (imm : Byte) (s : State) :
    execLdi a imm s = .next (setStatus (.faulted (.registerIndex a)) s) := by
  simp [execLdi, writeReg_outside h]

theorem execPrn_ok (r : Fin 8) (s : State) :
    execPrn (regByte r) s = .next (advance opPrn (output (getReg r s) s)) := by
  simp [execPrn, bind, Except.bind]

theorem execPrn_outside {a : Byte} (h : 8 ≤ a.toNat) (s : State) :
    execPrn a s = .next (setStatus (.faulted (.registerIndex a)) s) := by
  simp [execPrn, bind, Except.bind, readReg_outside h]

theorem execPush_ok (r : Fin 8) (s : State) : execPush (regByte r) s = .next (advance opPush
    (setMem (pushAddress s) (getReg r (setSp (decrementedSp s) s)) (setSp (decrementedSp s) s))) := by
  simp [execPush, bind, Except.bind]

theorem execPush_outside {a : Byte} (h : 8 ≤ a.toNat) (s : State) :
    execPush a s = .next (setStatus (.faulted (.registerIndex a)) s) := by
  simp [execPush, bind, Except.bind, checkIndex_outside h]

theorem execPop_ok (r : Fin 8) (s : State) : execPop (regByte r) s = .next (advance opPop
    (setSp (incrementedSp (setReg r (s.mem.read (getSp s).toNat) s)) (setReg r (s.mem.read (getSp s).toNat) s))) := by
  simp [execPop, bind, Except.bind]

theorem execPop_outside {a : Byte} (h : 8 ≤ a.toNat) (s : State) :
    execPop a s = .next (setStatus (.faulted (.registerIndex a)) s) := by
  simp [execPop, bind, Except.bind, checkIndex_outside h]

theorem execCall_ok (r : Fin 8) (s : State) : execCall (regByte r) s = .next (advance opCall
    (setPc (getReg r (setSp (decrementedSp s) s))
      (setMem (pushAddress s) (pcAfterTwoBytes s) (setSp (decrementedSp s) s)))) := by
  simp [execCall, bind, Except.bind]

theorem execCall_outside {a : Byte} (h : 8 ≤ a.toNat) (s : State) :
    execCall a s = .next (setStatus (.faulted (.registerIndex a)) s) := by
  simp [execCall, bind, Except.bind, checkIndex_outside h]

theorem execRet_ok (s : State) : execRet s =
    .next (advance opRet (setSp (incrementedSp s) (setPc (s.mem.read (getSp s).toNat) s))) := by
  simp [execRet, bind, Except.bind]

theorem execJmp_ok (r : Fin 8) (s : State) :
    execJmp (regByte r) s = .next (advance opJmp (setPc (getReg r s) s)) := by
  simp [execJmp, bind, Except.bind]

theorem execJmp_outside {a : Byte} (h : 8 ≤ a.toNat) (s : State) :
    execJmp a s = .next (setStatus (.faulted (.registerIndex a)) s) := by
  simp [execJmp, bind, Except.bind, checkIndex_outside h]

theorem execUnknownNonAlu_skip {s : State} (h : s.params.unknownPolicy = .skip) (ir : Byte) :
    execUnknownNonAlu ir s = .next (advance ir s) := by
  simp [execUnknownNonAlu, h]

theorem execUnknownNonAlu_fault {s : State} (h : s.params.unknownPolicy = .fault) (ir : Byte) :
    execUnknownNonAlu ir s = .next (setStatus (.faulted (.illegalInstruction ir)) s) := by
  simp [execUnknownNonAlu, h]

/-! ### The result of each form of instruction -/

theorem aluBinary_result (i : Instr) {a b : Byte} (ha : regOperandA i = some a) (hb : regOperandB i = some b)
    (hw : writtenOperand i = some a) {s : State} (hd : divisorFault s i = none) (f : Nat → Nat → Int) :
    ∃ t, aluBinary i.opcode f a b s = .next t ∧ Result s i t := by
  rcases operand_cases a with ⟨r, rfl⟩ | h
  · rcases operand_cases b with ⟨q, rfl⟩ | h
    · exact ⟨_, aluBinary_ok .., .done ((instrFault_regs ha (by simp [hb]) s).trans hd) (.writeReg r _ hw)⟩
    · exact ⟨_, aluBinary_outside_b _ _ r h s, .fault (instrFault_outside_b ha hb h s)⟩
  · exact ⟨_, aluBinary_outside_a _ _ h b s, .fault (instrFault_outside_a ha h s)⟩

theorem aluDivide_result (i : Instr) {a b : Byte} (ha : regOperandA i = some a) (hb : regOperandB i = some b)
    (hw : writtenOperand i = some a) {s : State}
    (hd : divisorFault s i = if s.regs[b.toNat]? = some 0#8 then some (.divideByZero a b) else none)
    (f : Nat → Nat → Nat) : ∃ t, aluDivide i.opcode f a b s = .next t ∧ Result s i t := by
  rcases operand_cases a with ⟨r, rfl⟩ | h
  · rcases operand_cases b with ⟨q, rfl⟩ | h
    · have hq : s.regs[(regByte q).toNat]? = some (getReg q s) := by simp [getReg]
      have hf := (instrFault_regs ha (by simp [hb]) s).trans hd
      by_cases hz : getReg q s = 0#8
      · exact ⟨_, aluDivide_zero _ _ r q s hz, .fault (by rw [hf, hq, hz, if_pos rfl])⟩
      · exact ⟨_, aluDivide_ok _ _ r q s hz, .done (by rw [hf, hq, if_neg (by simpa using hz)]) (.writeReg r _ hw)⟩
    · exact ⟨_, aluDivide_outside_b _ _ r h s, .fault (instrFault_outside_b ha hb h s)⟩
  · exact ⟨_, aluDivide_outside_a _ _ h b s, .fault (instrFault_outside_a ha h s)⟩

/-- An instruction with one register operand: it faults outside [0,8), and else makes a change. -/
theorem oneOperand_result {i : Instr} {a : Byte} {s : State} {o : Host.Outcome State Fault Refusal}
    (ha : regOperandA i = some a) (hb : regOperandB i = none) (hd : divisorFault s i = none)
    (hout : 8 ≤ a.toNat → o = .next (setStatus (.faulted (.registerIndex a)) s))
    (hok : ∀ r, a = regByte r → ∃ s', o = .next (advance i.opcode s') ∧ Change s i s') :
    ∃ t, o = .next t ∧ Result s i t := by
  rcases operand_cases a with ⟨r, rfl⟩ | h
  · obtain ⟨s', ho, c⟩ := hok r rfl
    exact ⟨_, ho, .done ((instrFault_regs ha (by simp [hb]) s).trans hd) c⟩
  · exact ⟨_, hout h, .fault (instrFault_outside_a ha h s)⟩

theorem aluUnary_result (i : Instr) {a : Byte} {s : State} (ha : regOperandA i = some a) (hb : regOperandB i = none)
    (hd : divisorFault s i = none) (hw : writtenOperand i = some a) (f : Nat → Int) :
    ∃ t, aluUnary i.opcode f a s = .next t ∧ Result s i t :=
  oneOperand_result ha hb hd (aluUnary_outside _ f · s) fun r hr => by
    subst hr; exact ⟨_, aluUnary_ok .., .writeReg r _ hw⟩

theorem condJump_result (i : Instr) {a : Byte} {s : State} (ha : regOperandA i = some a) (hb : regOperandB i = none)
    (hd : divisorFault s i = none) (hj : jumpOperand i = some a) (cond : Flags → Bool) :
    ∃ t, condJump i.opcode cond a s = .next t ∧ Result s i t :=
  oneOperand_result ha hb hd (condJump_outside _ cond · s) fun r hr => by
    subst hr; exact ⟨_, condJump_ok .., .jump r _ hj⟩

theorem execCmp_result (a b : Byte) (s : State) : ∃ t, execCmp a b s = .next t ∧ Result s (.cmp a b) t := by
  rcases operand_cases a with ⟨p, rfl⟩ | h
  · rcases operand_cases b with ⟨q, rfl⟩ | h
    · exact ⟨_, execCmp_ok p q s, .done (instrFault_regs (i := .cmp _ _) rfl (indexFault_regByte q) s) (.cmp p q)⟩
    · exact ⟨_, execCmp_outside_b p h s, .fault (instrFault_outside_b rfl rfl h s)⟩
  · exact ⟨_, execCmp_outside_a h b s, .fault (instrFault_outside_a rfl h s)⟩

theorem execUnknownNonAlu_result (ir : Byte) (s : State) :
    ∃ t, execUnknownNonAlu ir s = .next t ∧ Result s (.unknownNonAlu ir) t := by
  cases hp : s.params.unknownPolicy with
  | skip =>
    exact ⟨_, execUnknownNonAlu_skip hp ir, .done ((instrFault_unknownNonAlu ir s).trans (by simp [hp])) (.skip ir)⟩
  | fault =>
    exact ⟨_, execUnknownNonAlu_fault hp ir, .fault ((instrFault_unknownNonAlu ir s).trans (by simp [hp]))⟩

/-- Every execution ends in a next state: the first fault of R234's order is recorded there and nothing else changes, or,
where there is no fault, the rule's change and the engine's advance are made. -/
theorem exec_result (i : Instr) (s : State) : ∃ t, exec i s = .next t ∧ Result s i t := by
  cases i with
  | add a b => rw [exec, execAdd]; exact aluBinary_result (.add a b) rfl rfl rfl rfl _
  | sub a b => rw [exec, execSub]; exact aluBinary_result (.sub a b) rfl rfl rfl rfl _
  | mul a b => rw [exec, execMul]; exact aluBinary_result (.mul a b) rfl rfl rfl rfl _
  | div a b => rw [exec, execDiv]; exact aluDivide_result (.div a b) rfl rfl rfl rfl _
  | mod a b => rw [exec, execMod]; exact aluDivide_result (.mod a b) rfl rfl rfl rfl _
  | inc a => rw [exec, execInc]; exact aluUnary_result (.inc a) rfl rfl rfl rfl _
  | dec a => rw [exec, execDec]; exact aluUnary_result (.dec a) rfl rfl rfl rfl _
  | cmp a b => exact execCmp_result a b s
  | and a b => rw [exec, execAnd]; exact aluBinary_result (.and a b) rfl rfl rfl rfl _
  | not a => rw [exec, execNot]; exact aluUnary_result (.not a) rfl rfl rfl rfl _
  | or a b => rw [exec, execOr]; exact aluBinary_result (.or a b) rfl rfl rfl rfl _
  | xor a b => rw [exec, execXor]; exact aluBinary_result (.xor a b) rfl rfl rfl rfl _
  | shl a b => rw [exec, execShl]; exact aluBinary_result (.shl a b) rfl rfl rfl rfl _
  | shr a b => rw [exec, execShr]; exact aluBinary_result (.shr a b) rfl rfl rfl rfl _
  | hlt => exact ⟨_, rfl, .done rfl .hlt⟩
  | ldi a imm =>
    exact oneOperand_result rfl rfl rfl (execLdi_outside · imm s) fun r hr =>
      ⟨_, hr ▸ execLdi_ok r imm s, .writeReg r imm (congrArg some hr)⟩
  | prn a =>
    exact oneOperand_result rfl rfl rfl (execPrn_outside · s) fun r hr => ⟨_, hr ▸ execPrn_ok r s, hr ▸ .prn r⟩
  | push a =>
    exact oneOperand_result rfl rfl rfl (execPush_outside · s) fun r hr => ⟨_, hr ▸ execPush_ok r s, hr ▸ .push r⟩
  | pop a =>
    exact oneOperand_result rfl rfl rfl (execPop_outside · s) fun r hr => ⟨_, hr ▸ execPop_ok r s, hr ▸ .pop r⟩
  | call a =>
    exact oneOperand_result rfl rfl rfl (execCall_outside · s) fun r hr => ⟨_, hr ▸ execCall_ok r s, hr ▸ .call r⟩
  | ret => exact ⟨_, execRet_ok s, .done rfl .ret⟩
  | jmp a =>
    exact oneOperand_result rfl rfl rfl (execJmp_outside · s) fun r hr =>
      ⟨_, hr ▸ execJmp_ok r s, .jump r _ (congrArg some hr)⟩
  | jeq a => rw [exec, execJeq]; exact condJump_result (.jeq a) rfl rfl rfl rfl _
  | jne a => rw [exec, execJne]; exact condJump_result (.jne a) rfl rfl rfl rfl _
  | jle a => rw [exec, execJle]; exact condJump_result (.jle a) rfl rfl rfl rfl _
  | jgt a => rw [exec, execJgt]; exact condJump_result (.jgt a) rfl rfl rfl rfl _
  | jlt a => rw [exec, execJlt]; exact condJump_result (.jlt a) rfl rfl rfl rfl _
  | jge a => rw [exec, execJge]; exact condJump_result (.jge a) rfl rfl rfl rfl _
  | unknownAlu ir => exact ⟨_, rfl, .fault rfl⟩
  | unknownNonAlu ir => exact execUnknownNonAlu_result ir s

/-- What a next state of an execution is. -/
theorem result_of_exec {i : Instr} {s t : State} (h : exec i s = .next t) : Result s i t := by
  obtain ⟨u, hu, r⟩ := exec_result i s
  cases hu.symm.trans h
  exact r

/-! ## What the changes leave alone -/

/-- No instruction but CMP writes FL (R32). -/
theorem Change.fl_eq {i : Instr} {s s' : State} (c : Change s i s') (hi : ∀ a b, i ≠ .cmp a b) : s'.fl = s.fl := by
  cases c with
  | cmp p q => exact absurd rfl (hi _ _)
  | _ => simp

/-- Memory changes at most at one address in bounds (R52). -/
theorem Change.mem_cases {i : Instr} {s s' : State} (c : Change s i s') :
    s'.mem = s.mem ∨ ∃ v, s'.mem = s.mem.write (pushAddress s) v := by
  cases c with
  | push r => exact .inr ⟨_, by simp; rfl⟩
  | call r => exact .inr ⟨_, by simp; rfl⟩
  | _ => exact .inl (by simp)

/-- Out grows at its end only (R42). -/
theorem Change.out_prefix {i : Instr} {s s' : State} (c : Change s i s') : s.out <+: s'.out := by
  cases c with
  | prn r => exact List.prefix_append _ _
  | _ => simp

/-- HLT alone writes Status (R140). -/
theorem Change.status_eq {i : Instr} {s s' : State} (c : Change s i s') :
    s'.status = if i = .hlt then .halted else s.status := by
  cases c with
  | writeReg r v h => rw [if_neg (by rintro rfl; cases h), setReg_status]
  | jump r v h => rw [if_neg (by rintro rfl; cases h), setPc_status]
  | _ => simp

theorem Result.fl_eq {i : Instr} {s t : State} (r : Result s i t) (hi : ∀ a b, i ≠ .cmp a b) : t.fl = s.fl := by
  cases r with
  | fault h => rfl
  | done h c => simpa using c.fl_eq hi

theorem Result.out_prefix {i : Instr} {s t : State} (r : Result s i t) : s.out <+: t.out := by
  cases r with
  | fault h => simp
  | done h c => simpa using c.out_prefix

/-! ## The invariant -/

theorem compareFlags_exclusive (p q : Byte) : (compareFlags p q).exclusive = true := by
  unfold compareFlags
  split
  · rfl
  · split <;> rfl

/-- The change of an instruction keeps the invariant: its only store is in bounds, and CMP's flags exclude each other. -/
theorem Change.inv {i : Instr} {s s' : State} (c : Change s i s') (hs : Inv s) : Inv s' := by
  obtain ⟨hmem, hfl⟩ := hs
  constructor
  · rcases c.mem_cases with h | ⟨v, h⟩
    · rw [h]; exact hmem
    · rw [h]; exact Memory.wf_write hmem (byte_lt_memSize _) v
  · by_cases hi : ∃ a b, i = .cmp a b
    · obtain ⟨a, b, rfl⟩ := hi
      cases c with
      | cmp p q => exact compareFlags_exclusive _ _
      | writeReg r v h => cases h
      | jump r v h => cases h
    · rw [c.fl_eq fun a b h => hi ⟨a, b, h⟩]
      exact hfl

theorem Result.inv {i : Instr} {s t : State} (r : Result s i t) (hs : Inv s) : Inv t := by
  cases r with
  | fault h => exact hs
  | done h c =>
    obtain ⟨hmem, hfl⟩ := c.inv hs
    exact ⟨by rwa [advance_mem], by rwa [advance_fl]⟩

/-- Settles O52: the fetch fault changes Status alone, and an executed instruction keeps the invariant. -/
theorem stepKeepsInvariant : Obligations.StepKeepsInvariant := by
  intro s t hs h
  obtain ⟨-, ⟨-, rfl⟩ | ⟨-, hx⟩⟩ := step_cases h
  · exact hs
  · exact (result_of_exec hx).inv hs

/-! ## Index faults -/

theorem indexFault_eq_some {o : Option Byte} {f : FaultKind} :
    indexFault o = some f ↔ ∃ x, o = some x ∧ 8 ≤ x.toNat ∧ f = .registerIndex x := by
  cases o with
  | none => simp
  | some x => simp [indexFault, eq_comm]

theorem indexFault_eq_none {o : Option Byte} : indexFault o = none ↔ ∀ x, o = some x → x.toNat < 8 := by
  cases o with
  | none => simp
  | some x => simp [indexFault]

theorem divisorFault_ne_registerIndex (i : Instr) (s : State) (k : Byte) :
    divisorFault s i ≠ some (.registerIndex k) := by
  cases i <;> simp [divisorFault]

theorem opcodeFault_ne_registerIndex (i : Instr) (p : Params) (k : Byte) :
    opcodeFault p i ≠ some (.registerIndex k) := by
  cases i <;> simp [opcodeFault]

/-- The first fault is an index fault exactly when an operand's index is the first of the faults: a's, or b's after a
legal a. -/
theorem instrFault_registerIndex {i : Instr} {s : State} {k : Byte} :
    instrFault i s = some (.registerIndex k) ↔
      (regOperandA i = some k ∧ 8 ≤ k.toNat) ∨
      (∃ a, regOperandA i = some a ∧ a.toNat < 8 ∧ regOperandB i = some k ∧ 8 ≤ k.toNat) := by
  cases ha : regOperandA i with
  | none =>
    have hb := regOperandB_of_no_regOperandA ha
    simp [instrFault, ha, hb, Option.or_eq_some_iff, opcodeFault_ne_registerIndex, divisorFault_ne_registerIndex]
  | some a =>
    simp only [instrFault, ha, opcodeFault_of_regOperandA ha, Option.none_or, Option.or_eq_some_iff,
      indexFault_eq_some, indexFault_eq_none, divisorFault_ne_registerIndex]
    grind

/-- A state reached from a running one has the status Faulted(k) exactly where k is the first fault. -/
theorem Result.status_eq_faulted {i : Instr} {s t : State} (r : Result s i t) (hs : s.status = .running)
    {k : FaultKind} : t.status = .faulted k ↔ instrFault i s = some k := by
  cases r with
  | fault h => simp [h]
  | done h c =>
    rw [advance_status, c.status_eq, h]
    split <;> simp [hs]

/-- Settles O10: a register index is the fault recorded exactly where it is the first in the priority order. -/
theorem indexFaultsAreExact : Obligations.IndexFaultsAreExact := by
  intro i s k hs
  obtain ⟨t, ht, r⟩ := exec_result i s
  rw [← instrFault_registerIndex, ← r.status_eq_faulted hs, ht]
  simp

/-! ## FL, Status and Out -/

/-- Settles O30: CMP's own law, and that no other change touches FL. -/
theorem onlyCmpWritesFlags : Obligations.OnlyCmpWritesFlags := by
  refine ⟨fun i s t hi h => (result_of_exec h).fl_eq hi, fun p q s t h => ?_⟩
  rw [exec, execCmp_ok] at h
  cases h
  rw [advance_fl, setFl_fl, compareFlags]

/-- The rows of the ALU table stand under their instructions' own opcodes. -/
theorem opcode_of_mem_aluTable : ∀ row ∈ aluTable, ∀ a b, (row.2 a b).opcode = row.1 := by
  simp [aluTable, Instr.opcode]

theorem opcode_of_mem_dispatchTable {p : Params} : ∀ row ∈ dispatchTable p, ∀ a b, (row.2 a b).opcode = row.1 := by
  cases h : p.hasExtraJcc
  · simp [dispatchTable_base h, baseDispatchTable, Instr.opcode]
  · simp [dispatchTable_extra h, baseDispatchTable, extraDispatchTable, Instr.opcode]

/-- The decoded instruction's opcode is the byte it was decoded from (R77). -/
theorem opcode_decode (p : Params) (ir a b : Byte) : (decode p ir a b).opcode = ir := by
  cases h : isAlu ir
  · rcases decode_dispatch h p a b with ⟨make, hm, hd, -⟩ | ⟨hd, -⟩
    · rw [hd]; exact opcode_of_mem_dispatchTable _ hm a b
    · rw [hd]; rfl
  · rcases decode_alu h p a b with ⟨make, hm, hd, -⟩ | ⟨hd, -⟩
    · rw [hd]; exact opcode_of_mem_aluTable _ hm a b
    · rw [hd]; rfl

theorem decode_eq_hlt {p : Params} {ir a b : Byte} : decode p ir a b = .hlt ↔ ir = opHlt := by
  constructor
  · intro h
    rw [← opcode_decode p ir a b, h]
    rfl
  · rintro rfl
    exact decode_opHlt p a b

/-- A state reached from a running one is halted exactly where the instruction is HLT. -/
theorem Result.status_eq_halted {i : Instr} {s t : State} (r : Result s i t) (hs : s.status = .running) :
    t.status = .halted ↔ i = .hlt := by
  cases r with
  | fault h =>
    have hi : i ≠ .hlt := by rintro rfl; cases h
    simp [hi]
  | done h c =>
    rw [advance_status, c.status_eq]
    split <;> simp [*]

/-- Settles O32: the fetch fault does not halt, and an executed instruction halts exactly when it is HLT. -/
theorem onlyHltHalts : Obligations.OnlyHltHalts := by
  intro s t hs h
  obtain ⟨-, ⟨hpc, rfl⟩ | ⟨hpc, hx⟩⟩ := step_cases h
  · have : ¬ s.pc.toNat ≤ 253 := by omega
    simp [this]
  · rw [(result_of_exec hx).status_eq_halted hs, instrAtPc, decode_eq_hlt]
    exact (and_iff_right hpc).symm

theorem step_out_prefix {s t : State} (h : step s = .next t) : s.out <+: t.out := by
  obtain ⟨-, ⟨-, rfl⟩ | ⟨-, hx⟩⟩ := step_cases h
  · exact List.prefix_rfl
  · exact (result_of_exec hx).out_prefix

/-- A run of n + 1 steps that ends in a state is a step and a run of n steps. -/
theorem step_of_runSteps_succ {n : Nat} {s t : State} (h : runSteps (n + 1) s = .next t) :
    ∃ u, step s = .next u ∧ runSteps n u = .next t := by
  rw [runSteps] at h
  split at h
  next u hu => exact ⟨u, hu, h⟩
  next => cases h
  next => cases h

theorem runSteps_out_prefix {n : Nat} {s t : State} (h : runSteps n s = .next t) : s.out <+: t.out := by
  induction n generalizing s with
  | zero => cases h; exact List.prefix_rfl
  | succ n ih =>
    obtain ⟨u, hu, hn⟩ := step_of_runSteps_succ h
    exact (step_out_prefix hu).trans (ih hn)

/-- Settles O35: every step only appends to Out, by induction on the number of steps. -/
theorem outputIsNeverRemoved : Obligations.OutputIsNeverRemoved := by
  intro n s t h
  obtain ⟨added, ha⟩ := runSteps_out_prefix h
  exact ⟨added, ha.symm⟩

/-! ## Frames -/

/-- An instruction whose effect is one register write is no jump. -/
theorem jumpOperand_of_writtenOperand {i : Instr} {a : Byte} (h : writtenOperand i = some a) :
    jumpOperand i = none := by
  cases i with
  | jmp a => cases h
  | jeq a => cases h
  | jne a => cases h
  | jle a => cases h
  | jgt a => cases h
  | jlt a => cases h
  | jge a => cases h
  | _ => rfl

/-- Settles O48: each listed instruction faults or writes the register of operand a. -/
theorem frameOfRegisterWriters : Obligations.FrameOfRegisterWriters := by
  intro a b s t i hi h
  have hw : writtenOperand i = some a := by
    clear h; revert i; simp [writtenOperand]
  cases result_of_exec h with
  | fault hf => simp
  | done hf c =>
    cases c with
    | writeReg r v hr =>
      obtain rfl : a = regByte r := Option.some.inj (hw.symm.trans hr)
      have hreg : ∀ j : Fin 8, j.val ≠ (regByte r).toNat → getReg j (setReg r v s) = getReg j s := fun j hj =>
        getReg_setReg_other (by rintro rfl; exact hj (regByte_toNat r).symm) v s
      simpa using hreg
    | jump r v hj => rw [jumpOperand_of_writtenOperand hw] at hj; cases hj
    | _ => cases hw

/-- Settles O49: each listed instruction faults or makes one of the changes that write no register and no memory. -/
theorem frameOfRegisterReaders : Obligations.FrameOfRegisterReaders := by
  intro a b ir s t i hi h
  have hw : writtenOperand i = none := by
    clear h; revert i; simp [writtenOperand]
  cases result_of_exec h with
  | fault hf => simp
  | done hf c =>
    cases c with
    | writeReg r v hr => rw [hw] at hr; cases hr
    | cmp p q =>
      obtain ⟨rfl, rfl⟩ : regByte p = a ∧ regByte q = b := by simpa using hi
      simp
    | prn r =>
      obtain rfl : regByte r = a := by simpa using hi
      simp
    | hlt => simp
    | jump r v hj => simp
    | skip ir => simp
    | _ => simp at hi

/-! ## Reset and load -/

/-- Reset leaves `GPR_RESET` in every register that is not SP (R43, R44). -/
theorem getReg_resetWith {p : Params} {i : Fin 8} (h : p.spAliasesR7 = true → i ≠ 7) (g : Vector Byte 8) :
    getReg i (State.resetWith p g) = g[i.val] := by
  cases hp : p.spAliasesR7
  · simp [State.resetWith, getReg, hp]
  · have hi : 7 ≠ i.val := fun e => h hp (Fin.ext e.symm)
    simp [State.resetWith, getReg, hp, hi]

theorem getReg_seven_resetWith {p : Params} (hp : p.spAliasesR7 = true) (g : Vector Byte 8) :
    getReg 7 (State.resetWith p g) = spReset := by
  have hregs : (State.resetWith p g).regs = g.set 7 spReset := if_pos hp
  simp only [getReg_eq, hregs]
  exact Vector.getElem_set_self _

theorem getSp_resetWith (p : Params) (g : Vector Byte 8) : getSp (State.resetWith p g) = spReset := by
  cases hp : p.spAliasesR7
  · exact getSp_cell hp
  · rw [getSp_alias hp, getReg_seven_resetWith hp]

/-- The load accepts an image of at most 256 bytes and changes memory alone. -/
theorem boot_eq (p : Params) (g : Vector Byte 8) (image : List Byte) : boot p g image =
    if image.length ≤ 256 then some { State.resetWith p g with mem := Memory.place [] 0 image } else none := rfl

/-- Settles O1: the fields of the reset state, and the image read back from where the load placed it. -/
theorem bootLeavesSpecValues : Obligations.BootLeavesSpecValues := by
  intro p g image
  rw [boot_eq]
  have hread : ∀ a, a < 256 → (Memory.place [] 0 image).read a = (image[a]?).getD 0#8 := fun a ha => by
    rw [Memory.read_place _ _ _ _ ha, if_pos (Nat.zero_le a), Nat.sub_zero, Memory.read_nil]
  refine ⟨fun h => ⟨_, if_pos h, ?_⟩, fun h => if_neg (by omega)⟩
  exact ⟨fun i hi => getReg_resetWith (fun _ => hi) g, fun hp => getReg_seven_resetWith hp g,
    fun hp => getReg_resetWith (i := 7) (by simp [hp]) g, getSp_resetWith p g, rfl, rfl, hread, rfl, rfl, rfl⟩

/-- Settles O53: the loaded image is placed into empty memory, and the flags are clear. -/
theorem bootMeetsInvariant : Obligations.BootMeetsInvariant := by
  intro p g image s h
  rw [boot_eq] at h
  split at h
  next =>
    cases h
    exact ⟨Memory.wf_place Memory.wf_nil 0 image, rfl⟩
  next => cases h

/-- Settles O36: with `SP_ALIASES_R7` both accessors are those of R7, without it neither touches what the other does. -/
theorem spIsR7 : Obligations.SpIsR7 := by
  intro s v
  constructor
  · intro h
    refine ⟨getSp_alias h, ?_, ?_⟩
    · rw [getSp_alias (by simpa using h), getReg_setReg_same]
    · rw [setSp_alias h, getReg_setReg_same]
  · intro h i
    have hi : s.params.spAliasesR7 = true → i ≠ 7 := by simp [h]
    exact ⟨getSp_setReg_other hi v, getReg_setSp_other hi v⟩

theorem toByte_flag_bits (f : Flags) :
    f.toByte.getLsbD 0 = f.e ∧ f.toByte.getLsbD 1 = f.g ∧ f.toByte.getLsbD 2 = f.l := by
  obtain ⟨e, l, g⟩ := f
  cases e <;> cases l <;> cases g <;> decide

theorem toByte_high_bits (f : Flags) : ∀ k : Fin 8, 3 ≤ k.val → f.toByte.getLsbD k.val = false := by
  obtain ⟨e, l, g⟩ := f
  cases e <;> cases l <;> cases g <;> decide

/-- Settles O54: the eight bits for each of the eight flag values. -/
theorem flagsByteLayout : Obligations.FlagsByteLayout := by
  intro f
  obtain ⟨he, hg, hl⟩ := toByte_flag_bits f
  exact ⟨he, hg, hl, fun k h3 h8 => toByte_high_bits f ⟨k, h8⟩ h3⟩

end Sys2Proof.Machine

/-! # Proofs about memory (`20_memory.md`)

The frames of the stack instructions are read off `Change`: a store at `pushAddress`, or a load, beside a write of SP. -/

namespace Sys2Proof.Machine

/-! ## Accesses -/

/-- Settles O5: an access by where its address stands, the fetch at the top of memory, and SP, which is a byte. -/
theorem accessesAreBoundsChecked : Obligations.AccessesAreBoundsChecked := by
  intro s addr v
  refine ⟨fun h => ⟨if_pos h, if_pos h⟩, fun h => ?_, step_top, memRead_byte _ s, memWrite_pushAddress v s s⟩
  have hout : ¬ addr < memSize := Nat.not_lt.mpr h
  exact ⟨if_neg hout, if_neg hout⟩

/-- Settles O6: a write and a read of the same address, and of two addresses. -/
theorem readReturnsLastWrite : Obligations.ReadReturnsLastWrite := by
  intro s a b v
  rw [setMem_mem]
  split
  next h => subst h; exact Memory.read_write_same s.mem a v
  next h => exact Memory.read_write_other h s.mem v

/-- Settles O7: PUSH leaves the register's value at the decremented SP, and a fetch there reads it back. -/
theorem fetchSeesPushedByte : Obligations.FetchSeesPushedByte := by
  intro s t i hp h
  rw [exec, execPush_ok] at h
  cases h
  refine ⟨_, fetch_ok hp, ?_⟩
  rw [setPc_pc, setPc_mem, advance_mem, setMem_mem]
  exact Memory.read_write_same _ (pushAddress s) _

/-! ## Frames of the stack instructions -/

/-- With `SP_ALIASES_R7`, a write of SP leaves the cell alone. -/
theorem setSp_spCell_alias {s : State} (h : s.params.spAliasesR7 = true) (v : Byte) :
    (setSp v s).spCell = s.spCell := by
  rw [setSp_alias h, setReg_spCell]

/-- The store that PUSH and CALL make leaves every other address alone (R52). -/
theorem read_write_pushAddress_other {s : State} {addr : Nat} (h : addr ≠ pushAddress s) (v : Byte) :
    (s.mem.write (pushAddress s) v).read addr = s.mem.read addr :=
  Memory.read_write_other (Ne.symm h) s.mem v

/-- Settles O50: each of the two faults, or stores at the decremented SP after it has written SP. -/
theorem frameOfPushAndCall : Obligations.FrameOfPushAndCall := by
  intro a s t i hi h
  have hreg : ∀ j : Fin 8, (s.params.spAliasesR7 = true → j ≠ 7) →
      getReg j (setSp (decrementedSp s) s) = getReg j s := fun j h7 => getReg_setSp_other h7 _
  have hcell : s.params.spAliasesR7 = true → (setSp (decrementedSp s) s).spCell = s.spCell := fun hp =>
    setSp_spCell_alias hp _
  cases result_of_exec h with
  | fault hf => simp
  | done hf c =>
    obtain rfl | rfl : i = .push a ∨ i = .call a := by simpa using hi
    · cases c with
      | push r => simpa using ⟨fun addr hne => read_write_pushAddress_other hne _, hreg, hcell⟩
      | writeReg r v hw => cases hw
      | jump r v hj => cases hj
    · cases c with
      | call r => simpa using ⟨fun addr hne => read_write_pushAddress_other hne _, hreg, hcell⟩
      | writeReg r v hw => cases hw
      | jump r v hj => cases hj

/-- Settles O51: each of the two faults, or writes SP, which POP does after the register of operand a. -/
theorem frameOfPopAndRet : Obligations.FrameOfPopAndRet := by
  intro a s t i hi h
  cases result_of_exec h with
  | fault hf => simp
  | done hf c =>
    obtain rfl | rfl : i = .pop a ∨ i = .ret := by simpa using hi
    · cases c with
      | pop r =>
        refine ⟨by simp, fun j h7 hj => ?_, fun hp => ?_, by simp, by simp, by simp, by simp⟩
        · have hne : r ≠ j := by rintro rfl; exact hj rfl (regByte_toNat r).symm
          rw [getReg_advance, getReg_setSp_other (s := setReg r _ s) h7, getReg_setReg_other hne]
        · rw [advance_spCell, setSp_spCell_alias (s := setReg r _ s) hp, setReg_spCell]
      | writeReg r v hw => cases hw
      | jump r v hj => cases hj
    · cases c with
      | ret =>
        refine ⟨by simp, fun j h7 _ => ?_, fun hp => ?_, by simp, by simp, by simp, by simp⟩
        · rw [getReg_advance, getReg_setSp_other (s := setPc (s.mem.read (getSp s).toNat) s) h7, getReg_setPc]
        · rw [advance_spCell, setSp_spCell_alias (s := setPc (s.mem.read (getSp s).toNat) s) hp, setPc_spCell]
      | writeReg r v hw => cases hw
      | jump r v hj => cases hj

end Sys2Proof.Machine

/-! # Proofs about the encoding (`30_encoding.md`)

Two facts carry most of the statements: a well-formed instruction is what any three bytes that begin with its own
decode to (`decode_opcode`), and what three bytes decode to is well-formed and encoded by the first of them
(`wellFormed_decode`, `encode_decode_prefix`). -/

namespace Sys2Proof

/-! ## The number of operand bytes -/

/-- An instruction has no more operand bytes than its opcode's bits say (R70, R71); an unknown opcode's term holds
none. -/
theorem length_operandBytes_le_operandCount (i : Instr) : i.operandBytes.length ≤ operandCount i.opcode := by
  cases i with
  | unknownAlu ir => exact Nat.zero_le _
  | unknownNonAlu ir => exact Nat.zero_le _
  | _ => simp [Instr.operandBytes, Instr.opcode]

theorem length_operandBytes_le_two (i : Instr) : i.operandBytes.length ≤ 2 := by
  cases i <;> simp [Instr.operandBytes]

/-! ## From an instruction to its bytes and back -/

theorem decode_unknownAlu {p : Params} {ir : Byte} (hw : (Instr.unknownAlu ir).wellFormed p = true) (a b : Byte) :
    decode p ir a b = .unknownAlu ir := by
  obtain ⟨halu, hop⟩ : isAlu ir = true ∧ isAluOpcode ir = false := by simpa [Instr.wellFormed] using hw
  rcases decode_alu halu p a b with ⟨make, -, -, h⟩ | ⟨h, -⟩
  · rw [hop] at h; cases h
  · exact h

theorem decode_unknownNonAlu {p : Params} {ir : Byte} (hw : (Instr.unknownNonAlu ir).wellFormed p = true)
    (a b : Byte) : decode p ir a b = .unknownNonAlu ir := by
  obtain ⟨halu, hop⟩ : isAlu ir = false ∧ isDispatchOpcode p ir = false := by simpa [Instr.wellFormed] using hw
  rcases decode_dispatch halu p a b with ⟨make, -, -, h⟩ | ⟨h, -⟩
  · rw [hop] at h; cases h
  · exact h

/-- Any two bytes that begin with the instruction's operand bytes, after its opcode, decode to it (R72, R78). -/
theorem decode_opcode {p : Params} {i : Instr} (hw : i.wellFormed p = true) {a b : Byte}
    (h : i.operandBytes <+: [a, b]) : decode p i.opcode a b = i := by
  cases i with
  | unknownAlu ir => exact decode_unknownAlu hw a b
  | unknownNonAlu ir => exact decode_unknownNonAlu hw a b
  | jgt x => simp_all [Instr.operandBytes, Instr.opcode, decode_opJgt hw]
  | jlt x => simp_all [Instr.operandBytes, Instr.opcode, decode_opJlt hw]
  | jge x => simp_all [Instr.operandBytes, Instr.opcode, decode_opJge hw]
  | _ => simp_all [Instr.operandBytes, Instr.opcode]

/-- Settles O11: of the instruction's operand bytes and those after them, the two that the decoder reads begin with the
operand bytes. -/
theorem decodeOfEncode : Obligations.DecodeOfEncode := by
  intro p i rest hw hrest
  have hlen : 2 ≤ (i.operandBytes ++ rest).length := by rw [List.length_append]; omega
  obtain ⟨a, b, tail, ht⟩ : ∃ a b tail, i.operandBytes ++ rest = a :: b :: tail := by
    match i.operandBytes ++ rest, hlen with
    | a :: b :: tail, _ => exact ⟨a, b, tail, rfl⟩
  have hpre : i.operandBytes <+: [a, b] :=
    List.prefix_of_prefix_length_le ⟨rest, ht⟩ (List.prefix_append [a, b] tail) (length_operandBytes_le_two i)
  rw [encode, List.cons_append, ht, decodeBytes, decode_opcode hw hpre]

/-! ## From bytes to the instruction and back -/

/-- What three bytes decode to: the instruction of a table's row, or a well-formed unknown opcode. -/
theorem decode_cases (p : Params) (ir a b : Byte) :
    (∃ row ∈ aluTable ++ dispatchTable p, decode p ir a b = row.2 a b) ∨
    (decode p ir a b = .unknownAlu ir ∧ (Instr.unknownAlu ir).wellFormed p = true) ∨
    (decode p ir a b = .unknownNonAlu ir ∧ (Instr.unknownNonAlu ir).wellFormed p = true) := by
  cases h : isAlu ir
  · rcases decode_dispatch h p a b with ⟨make, hm, hd, -⟩ | ⟨hd, hn⟩
    · exact .inl ⟨_, List.mem_append_right _ hm, hd⟩
    · exact .inr (.inr ⟨hd, by simp [Instr.wellFormed, h, hn]⟩)
  · rcases decode_alu h p a b with ⟨make, hm, hd, -⟩ | ⟨hd, hn⟩
    · exact .inl ⟨_, List.mem_append_left _ hm, hd⟩
    · exact .inr (.inl ⟨hd, by simp [Instr.wellFormed, h, hn]⟩)

/-- The rows of the optional jumps stand in the table only where the core has them (R181). -/
theorem wellFormed_of_mem_tables {p : Params} {row : DecodeRow} (h : row ∈ aluTable ++ dispatchTable p) (a b : Byte) :
    (row.2 a b).wellFormed p = true := by
  revert row
  cases hp : p.hasExtraJcc
  · simp [dispatchTable_base hp, aluTable, baseDispatchTable, Instr.wellFormed]
  · simp [dispatchTable_extra hp, aluTable, baseDispatchTable, extraDispatchTable, Instr.wellFormed, hp]

/-- A row makes its instruction of the byte a, of both bytes in order, or of none (R72). -/
theorem operandBytes_of_mem_tables {p : Params} {row : DecodeRow} (h : row ∈ aluTable ++ dispatchTable p)
    (a b : Byte) : (row.2 a b).operandBytes <+: [a, b] := by
  revert row
  cases hp : p.hasExtraJcc
  · simp [dispatchTable_base hp, aluTable, baseDispatchTable, Instr.operandBytes]
  · simp [dispatchTable_extra hp, aluTable, baseDispatchTable, extraDispatchTable, Instr.operandBytes]

theorem wellFormed_decode (p : Params) (ir a b : Byte) : (decode p ir a b).wellFormed p = true := by
  rcases decode_cases p ir a b with ⟨row, hr, hd⟩ | ⟨hd, hw⟩ | ⟨hd, hw⟩
  · rw [hd]; exact wellFormed_of_mem_tables hr a b
  · rw [hd]; exact hw
  · rw [hd]; exact hw

theorem operandBytes_decode_prefix (p : Params) (ir a b : Byte) : (decode p ir a b).operandBytes <+: [a, b] := by
  rcases decode_cases p ir a b with ⟨row, hr, hd⟩ | ⟨hd, -⟩ | ⟨hd, -⟩
  · rw [hd]; exact operandBytes_of_mem_tables hr a b
  · rw [hd]; exact List.nil_prefix
  · rw [hd]; exact List.nil_prefix

theorem encode_decode_prefix (p : Params) (ir a b : Byte) : encode (decode p ir a b) <+: [ir, a, b] := by
  rw [encode, Machine.opcode_decode, List.cons_prefix_cons]
  exact ⟨rfl, operandBytes_decode_prefix p ir a b⟩

/-- Settles O12: each row of the tables and both classes of unknown opcodes. -/
theorem encodeOfDecode : Obligations.EncodeOfDecode := fun p ir a b =>
  ⟨wellFormed_decode p ir a b, encode_decode_prefix p ir a b⟩

/-- Only the operand bytes that the opcode's bits count decide what is decoded (R73): the decoded instruction's operand
bytes are among them, so the other bytes decode to it as well. -/
theorem decode_congr {p : Params} {ir a b a' b' : Byte}
    (h : [a, b].take (operandCount ir) = [a', b'].take (operandCount ir)) : decode p ir a b = decode p ir a' b' := by
  have hlen := length_operandBytes_le_operandCount (decode p ir a b)
  rw [Machine.opcode_decode] at hlen
  have hcounted : (decode p ir a b).operandBytes <+: [a, b].take (operandCount ir) :=
    List.prefix_take_iff.mpr ⟨operandBytes_decode_prefix p ir a b, hlen⟩
  rw [h] at hcounted
  have hd := decode_opcode (wellFormed_decode p ir a b) (hcounted.trans (List.take_prefix _ _))
  rw [Machine.opcode_decode] at hd
  exact hd.symm

/-- Settles O15: with a count of at most 1 the bytes counted are those before b, with a count of 0 there is none. -/
theorem unusedOperandBytesAreIgnored : Obligations.UnusedOperandBytesAreIgnored := by
  refine fun p ir a b a' b' => ⟨fun h => decode_congr ?_, fun h => decode_congr ?_⟩
  · rcases Nat.le_one_iff_eq_zero_or_eq_one.mp h with h | h <;> simp [h]
  · simp [h]

/-! ## The opcode map -/

/-- Settles O13: each word's opcode is the one of its instruction. -/
theorem specWordsDecode : Obligations.SpecWordsDecode :=
  ⟨decode_opAdd _ 1#8 2#8, decode_opNot _ 3#8 9#8, decode_opCmp _ 4#8 5#8, decode_opHlt _ 7#8 7#8,
    decode_opLdi _ 0#8 8#8, decode_opPrn _ 6#8 0#8, decode_opPush _ 2#8 0#8, decode_opCall _ 1#8 0#8,
    decode_opRet _ 1#8 0#8, decode_opJle _ 3#8 0#8, decode_opJge rfl 3#8 0#8⟩

/-- A byte is found in a decode table exactly when it is the opcode of a row. -/
theorem isSome_lookup_eq_decide (rows : List DecodeRow) (ir : Byte) :
    (rows.lookup ir).isSome = decide (ir ∈ rows.map Prod.fst) := by
  rw [Bool.eq_iff_iff, List.lookup_isSome_iff]
  simp only [beq_iff_eq, decide_eq_true_eq, List.mem_map, @eq_comm _ ir]

/-- The 256 opcode bytes, as the census lists them. -/
abbrev allBytes : List Byte := (List.range 256).map (BitVec.ofNat 8)

theorem mem_allBytes (v : Byte) : v ∈ allBytes :=
  List.mem_map.mpr ⟨v.toNat, List.mem_range.mpr v.isLt, BitVec.ofNat_toNat 8 v⟩

theorem nodup_allBytes : allBytes.Nodup := by
  refine List.pairwise_map.mpr (List.Pairwise.imp_of_mem (fun {x y} hx hy hne h => hne ?_) List.nodup_range)
  rw [List.mem_range] at hx hy
  bv_omega

/-- Opcodes that differ from each other are as many among the 256 bytes as they are. -/
theorem countP_mem_allBytes {ops : List Byte} (h : ops.Nodup) :
    allBytes.countP (fun ir => decide (ir ∈ ops)) = ops.length := by
  rw [List.countP_eq_length_filter]
  refine ((List.perm_ext_iff_of_nodup (List.Pairwise.filter _ nodup_allBytes) h).mpr fun v => ?_).length_eq
  simp only [List.mem_filter, decide_eq_true_eq]
  exact and_iff_right (mem_allBytes v)

/-- IR[5] is set in half of the bytes. -/
theorem countP_isAlu_allBytes : allBytes.countP isAlu = 128 ∧ allBytes.countP (fun ir => !isAlu ir) = 128 := by
  decide +kernel

/-- Where every opcode of a table is in the class q, the class is the table's rows and the unknown opcodes. -/
theorem countP_table {q : Byte → Bool} {rows : List DecodeRow} (hq : ∀ op ∈ rows.map Prod.fst, q op = true)
    (h : (rows.map Prod.fst).Nodup) :
    allBytes.countP (fun ir => q ir && (rows.lookup ir).isSome) = rows.length ∧
    allBytes.countP (fun ir => q ir && !(rows.lookup ir).isSome) = allBytes.countP q - rows.length := by
  have hknown : allBytes.countP (fun ir => q ir && (rows.lookup ir).isSome) = rows.length := by
    rw [← List.length_map Prod.fst, ← countP_mem_allBytes h]
    refine List.countP_congr fun ir _ => ?_
    rw [isSome_lookup_eq_decide]
    simpa using hq ir
  have hsplit := List.countP_eq_countP_filter_add allBytes q fun ir => (rows.lookup ir).isSome
  simp only [List.countP_filter, hknown] at hsplit
  exact ⟨hknown, by omega⟩

theorem length_dispatchTable (p : Params) : (dispatchTable p).length = if p.hasExtraJcc then 14 else 11 := by
  unfold dispatchTable
  split <;> rfl

theorem dispatchTable_sublist (p : Params) : (dispatchTable p).Sublist (baseDispatchTable ++ extraDispatchTable) := by
  unfold dispatchTable
  split
  · exact List.Sublist.refl _
  · exact List.sublist_append_left _ _

/-- Settles O14: a half of the bytes for each class, and in it the rows of its table, whose opcodes are distinct. -/
theorem opcodeCensus : Obligations.OpcodeCensus := by
  intro p
  have hdistinct := opcodes_distinct
  rw [List.map_append, List.pairwise_append] at hdistinct
  obtain ⟨haluDistinct, hnonDistinct, -⟩ := hdistinct
  have hsub := (dispatchTable_sublist p).map Prod.fst
  obtain ⟨halu, hnon⟩ := countP_isAlu_allBytes
  obtain ⟨hop, hunknown⟩ := countP_table aluTable_isAlu haluDistinct
  obtain ⟨hop', hunknown'⟩ := countP_table (q := fun ir => !isAlu ir) (rows := dispatchTable p)
    (fun op h => by simp [dispatchTable_notAlu op (hsub.subset h)]) (hnonDistinct.sublist hsub)
  rw [halu] at hunknown
  rw [hnon, length_dispatchTable] at hunknown'
  refine ⟨hop, hunknown, hop'.trans (length_dispatchTable p), hunknown'.trans ?_⟩
  split <;> rfl

end Sys2Proof

namespace Sys2Proof.Machine

/-- Settles O3: the bytes of the encoding are the first of those fetched. -/
theorem stepRunsEncodedInstruction : Obligations.StepRunsEncodedInstruction := by
  intro s i hs hpc hw hbytes
  have hop : s.mem.read s.pc.toNat = i.opcode := hbytes 0 _ rfl
  have hpre : i.operandBytes <+: [s.mem.read (s.pc.toNat + 1), s.mem.read (s.pc.toNat + 2)] := by
    rw [List.prefix_iff_getElem?]
    intro k hk
    have hread := hbytes (k + 1) i.operandBytes[k] (by simp [encode, hk])
    match k, Nat.lt_of_lt_of_le hk (length_operandBytes_le_two i) with
    | 0, _ => exact congrArg some hread
    | 1, _ => exact congrArg some hread
  rw [step_exec hs hpc, instrAtPc, hop, decode_opcode hw hpre]

/-- Every jump's opcode has setsPC = 1 (R174, R176). -/
theorem setsPc_of_jumpOperand {i : Instr} {a : Byte} (h : jumpOperand i = some a) : setsPc i.opcode = true := by
  cases i with
  | jmp a => exact setsPc_opJmp
  | jeq a => exact setsPc_opJeq
  | jne a => exact setsPc_opJne
  | jle a => exact setsPc_opJle
  | jgt a => exact setsPc_opJgt
  | jlt a => exact setsPc_opJlt
  | jge a => exact setsPc_opJge
  | _ => cases h

/-- A rule whose opcode has setsPC = 0 leaves PC to the engine. -/
theorem Change.pc_eq {i : Instr} {s s' : State} (c : Change s i s') (h : setsPc i.opcode = false) : s'.pc = s.pc := by
  cases c with
  | call r => rw [Instr.opcode, setsPc_opCall] at h; cases h
  | ret => rw [Instr.opcode, setsPc_opRet] at h; cases h
  | jump r v hj => rw [setsPc_of_jumpOperand hj] at h; cases h
  | _ => simp

/-- The rule of an unknown opcode does nothing. -/
theorem Change.eq_of_unknownNonAlu {ir : Byte} {s s' : State} (c : Change s (.unknownNonAlu ir) s') : s' = s := by
  cases c with
  | skip => rfl
  | writeReg r v h => cases h
  | jump r v h => cases h

theorem advance_pc_toNat {ir : Byte} (h : setsPc ir = false) (s : State) :
    (advance ir s).pc.toNat = (s.pc.toNat + operandCount ir + 1) % 256 := by
  rw [advance_bytes h rfl, setPc_pc, BitVec.toNat_add, BitVec.toNat_ofNat]
  omega

/-- Settles O16: a rule with setsPC = 0 leaves PC to the engine's advance, and with setsPC = 1 there is no advance. -/
theorem advanceFollowsOpcodeBits : Obligations.AdvanceFollowsOpcodeBits := by
  intro i s t _ h hk
  cases result_of_exec h with
  | fault hf => exact absurd rfl (hk _)
  | done hf c =>
    constructor
    · intro hset
      rw [advance_pc_toNat hset, c.pc_eq hset]
    · rintro ir rfl hset
      rw [advance_none (ir := Instr.opcode (.unknownNonAlu ir)) hset, c.eq_of_unknownNonAlu]

theorem exec_unknownAlu (ir : Byte) (s : State) :
    exec (.unknownAlu ir) s = .next (setStatus (.faulted (.unsupportedOperation ir)) s) := rfl

/-- Settles O17: the byte at PC is the opcode of no row of the ALU table, so it decodes to the unknown ALU opcode. -/
theorem unknownAluOpcodeFaults : Obligations.UnknownAluOpcodeFaults := by
  refine ⟨exec_unknownAlu, fun s hs hpc halu hnot => ?_⟩
  have hop : isAluOpcode (s.mem.read s.pc.toNat) = false :=
    (isSome_lookup_eq_decide aluTable _).trans (decide_eq_false hnot)
  have hw : (Instr.unknownAlu (s.mem.read s.pc.toNat)).wellFormed s.params = true := by
    simp [Instr.wellFormed, isAlu, halu, hop]
  rw [step_exec hs hpc, instrAtPc, decode_unknownAlu hw, exec_unknownAlu]

end Sys2Proof.Machine

/-! # Proofs about the ALU (`40_alu.md`)

An ALU operation is one of three forms, `aluBinary`, `aluUnary` and `aluDivide`. What a form writes and how it advances
PC is said once; an operation's own content is then the law of `mod256` for its function. The index faults are
`instrFault`'s, whatever the form. -/

namespace Sys2Proof

/-! ## The narrowing and the shifts -/

/-- `mod256` is the integer remainder in [0,256), also of a negative integer (R11). -/
theorem toNat_mod256 (v : Int) : ((mod256 v).toNat : Int) = v % 256 := by
  simp only [mod256, BitVec.toNat_ofInt]
  omega

theorem mod256_complement_eq_sub (x : Byte) : mod256 (255 - (x.toNat : Int)) = 255#8 - x := mod256_sub 255#8 x

/-- The complement `255 - x` is its own inverse (R121). -/
theorem complement_complement (x : Byte) : 255#8 - (255#8 - x) = x := by bv_omega

/-- A left shift by 8 or more shifts out the whole byte (R122). -/
theorem mod256_shl_eq_ite (x : Byte) (n : Nat) :
    mod256 ((x.toNat <<< n : Nat) : Int) = if 8 ≤ n then 0#8 else x <<< n := by
  rw [mod256_shl]
  split
  next h => exact BitVec.shiftLeft_eq_zero h
  next h => rfl

/-- A right shift by 8 or more shifts out the whole byte (R123, R124). -/
theorem mod256_shr_eq_ite (x : Byte) (n : Nat) :
    mod256 ((x.toNat >>> n : Nat) : Int) = if 8 ≤ n then 0#8 else x >>> n := by
  rw [mod256_shr]
  split
  next h => exact BitVec.ushiftRight_eq_zero h
  next h => rfl

end Sys2Proof

namespace Sys2Proof.Machine

/-! ## The faults of an instruction -/

/-- An instruction with a fault in the order of R234 ends in it, and nothing else changes. -/
theorem exec_of_instrFault {i : Instr} {s : State} {k : FaultKind} (h : instrFault i s = some k) :
    exec i s = .next (setStatus (.faulted k) s) := by
  obtain ⟨t, ht, r⟩ := exec_result i s
  cases r with
  | fault hf => cases hf.symm.trans h; exact ht
  | done hf c => cases hf.symm.trans h

theorem exec_outside_a {i : Instr} {a : Byte} (ha : regOperandA i = some a) (h : 8 ≤ a.toNat) (s : State) :
    exec i s = .next (setStatus (.faulted (.registerIndex a)) s) :=
  exec_of_instrFault (instrFault_outside_a ha h s)

theorem exec_outside_b {i : Instr} {r : Fin 8} {b : Byte} (ha : regOperandA i = some (regByte r))
    (hb : regOperandB i = some b) (h : 8 ≤ b.toNat) (s : State) :
    exec i s = .next (setStatus (.faulted (.registerIndex b)) s) :=
  exec_of_instrFault (instrFault_outside_b ha hb h s)

theorem exec_outside_a_of_mem {l : List Instr} {a : Byte} (ha : ∀ ins ∈ l, regOperandA ins = some a) (h : 8 ≤ a.toNat)
    (s : State) : ∀ ins ∈ l, exec ins s = .next (setStatus (.faulted (.registerIndex a)) s) :=
  fun ins hins => exec_outside_a (ha ins hins) h s

theorem exec_outside_b_of_mem {l : List Instr} (r : Fin 8) {b : Byte}
    (ha : ∀ ins ∈ l, regOperandA ins = some (regByte r)) (hb : ∀ ins ∈ l, regOperandB ins = some b) (h : 8 ≤ b.toNat)
    (s : State) : ∀ ins ∈ l, exec ins s = .next (setStatus (.faulted (.registerIndex b)) s) :=
  fun ins hins => exec_outside_b (ha ins hins) (hb ins hins) h s

theorem exec_divide_zero {i j : Fin 8} {s : State} (h : getReg j s = 0#8) :
    ∀ ins ∈ [Instr.div (regByte i) (regByte j), .mod (regByte i) (regByte j)],
      exec ins s = .next (setStatus (.faulted (.divideByZero (regByte i) (regByte j))) s) := by
  intro ins hins
  obtain rfl | rfl : ins = .div (regByte i) (regByte j) ∨ ins = .mod (regByte i) (regByte j) := by simpa using hins
  · exact aluDivide_zero opDiv _ i j s h
  · exact aluDivide_zero opMod _ i j s h

/-! ## The three forms, with the value v that they write -/

theorem advance_three_bytes {ir : Byte} (hs : setsPc ir = false) (hn : operandCount ir = 2) (s : State) :
    advance ir s = setPc (s.pc + 3#8) s := advance_bytes hs hn s

theorem advance_two_bytes {ir : Byte} (hs : setsPc ir = false) (hn : operandCount ir = 1) (s : State) :
    advance ir s = setPc (s.pc + 2#8) s := advance_bytes hs hn s

theorem aluBinary_writes {ir : Byte} (hs : setsPc ir = false) (hn : operandCount ir = 2) {f : Nat → Nat → Int}
    {i j : Fin 8} {s : State} {v : Byte} (hv : mod256 (f (getReg i s).toNat (getReg j s).toNat) = v) :
    aluBinary ir f (regByte i) (regByte j) s = .next (setPc (s.pc + 3#8) (setReg i v s)) := by
  rw [aluBinary_ok, advance_three_bytes hs hn, setReg_pc, hv]

theorem aluUnary_writes {ir : Byte} (hs : setsPc ir = false) (hn : operandCount ir = 1) {f : Nat → Int}
    {i : Fin 8} {s : State} {v : Byte} (hv : mod256 (f (getReg i s).toNat) = v) :
    aluUnary ir f (regByte i) s = .next (setPc (s.pc + 2#8) (setReg i v s)) := by
  rw [aluUnary_ok, advance_two_bytes hs hn, setReg_pc, hv]

theorem aluDivide_writes {ir : Byte} (hs : setsPc ir = false) (hn : operandCount ir = 2) {f : Nat → Nat → Nat}
    {i j : Fin 8} {s : State} {v : Byte} (hj : getReg j s ≠ 0#8)
    (hv : mod256 (f (getReg i s).toNat (getReg j s).toNat) = v) :
    aluDivide ir f (regByte i) (regByte j) s = .next (setPc (s.pc + 3#8) (setReg i v s)) := by
  rw [aluDivide_ok _ _ _ _ _ hj, advance_three_bytes hs hn, setReg_pc, hv]

/-- The modular law of every two-operand operation: its exact integer result, reduced modulo 256 (R106). -/
theorem aluBinary_value (ir : Byte) (f : Nat → Nat → Int) (i j : Fin 8) (s : State) :
    ∃ t, aluBinary ir f (regByte i) (regByte j) s = .next t ∧
      ((getReg i t).toNat : Int) = f (getReg i s).toNat (getReg j s).toNat % 256 := by
  refine ⟨_, aluBinary_ok .., ?_⟩
  rw [getReg_advance, getReg_setReg_same, toNat_mod256]

/-! ## ADD, SUB and MUL -/

/-- Settles O23: the modular law of `aluBinary` for the three exact results. -/
theorem modularArithmeticLaw : Obligations.ModularArithmeticLaw := by
  intro i j s
  rw [exec, execAdd, exec, execSub, exec, execMul]
  exact ⟨aluBinary_value .., aluBinary_value .., aluBinary_value ..⟩

/-- Settles O22: the three results as bytes, and the index faults in the order of R234. -/
theorem addSubMulResults : Obligations.AddSubMulResults := by
  refine ⟨fun i j s => ⟨?_, ?_, ?_⟩, fun a b s h => ?_, fun i b s h => ?_⟩
  · rw [exec, execAdd]
    exact aluBinary_writes setsPc_opAdd operandCount_opAdd (mod256_add _ _)
  · rw [exec, execSub]
    exact aluBinary_writes setsPc_opSub operandCount_opSub (mod256_sub _ _)
  · rw [exec, execMul]
    exact aluBinary_writes setsPc_opMul operandCount_opMul (mod256_mul _ _)
  · exact exec_outside_a_of_mem (by simp [regOperandA]) h s
  · exact exec_outside_b_of_mem i (by simp [regOperandA]) (by simp [regOperandB]) h s

/-! ## DIV and MOD -/

theorem exec_div {i j : Fin 8} {s : State} (h : getReg j s ≠ 0#8) : exec (.div (regByte i) (regByte j)) s =
    .next (setPc (s.pc + 3#8) (setReg i (getReg i s / getReg j s) s)) := by
  rw [exec, execDiv]
  exact aluDivide_writes setsPc_opDiv operandCount_opDiv h (mod256_div _ _)

theorem exec_mod {i j : Fin 8} {s : State} (h : getReg j s ≠ 0#8) : exec (.mod (regByte i) (regByte j)) s =
    .next (setPc (s.pc + 3#8) (setReg i (getReg i s % getReg j s) s)) := by
  rw [exec, execMod]
  exact aluDivide_writes setsPc_opMod operandCount_opMod h (mod256_mod _ _)

/-- Settles O25: the two results are the quotient and the remainder of one division of natural numbers. -/
theorem divisionLaw : Obligations.DivisionLaw := by
  refine fun i j s => ⟨fun h => ⟨_, _, exec_div h, exec_mod h, ?_, ?_⟩, fun h ins hins => ?_⟩
  · rw [getReg_setPc, getReg_setPc, getReg_setReg_same, getReg_setReg_same, BitVec.toNat_udiv, BitVec.toNat_umod]
    exact (Nat.div_add_mod _ _).symm
  · have hpos : 0 < (getReg j s).toNat := Nat.pos_of_ne_zero fun h0 => h (BitVec.eq_of_toNat_eq h0)
    rw [getReg_setPc, getReg_setReg_same, BitVec.toNat_umod]
    exact Nat.mod_lt _ hpos
  · exact ⟨_, exec_divide_zero h ins hins, rfl, rfl⟩

/-- Settles O24: the two results, and the divisor's fault after the index faults. -/
theorem divModResults : Obligations.DivModResults := by
  refine ⟨fun i j s h => ⟨exec_div h, exec_mod h⟩, fun i j s => exec_divide_zero, fun a b s h => ?_,
    fun i b s h => ?_⟩
  · exact exec_outside_a_of_mem (by simp [regOperandA]) h s
  · exact exec_outside_b_of_mem i (by simp [regOperandA]) (by simp [regOperandB]) h s

/-! ## INC, DEC and NOT -/

theorem exec_not (i : Fin 8) (s : State) :
    exec (.not (regByte i)) s = .next (setPc (s.pc + 2#8) (setReg i (255#8 - getReg i s) s)) := by
  rw [exec, execNot]
  exact aluUnary_writes setsPc_opNot operandCount_opNot (mod256_complement_eq_sub _)

theorem getReg_of_exec_not {i : Fin 8} {s t : State} (h : exec (.not (regByte i)) s = .next t) :
    getReg i t = 255#8 - getReg i s := by
  cases (exec_not i s).symm.trans h
  rw [getReg_setPc, getReg_setReg_same]

/-- Settles O26: the three results, and the complement of the complement. -/
theorem incDecNotResults : Obligations.IncDecNotResults := by
  refine ⟨fun i s => ⟨?_, ?_, exec_not i s, fun t u ht hu => ?_⟩, fun a s h => ?_⟩
  · rw [exec, execInc]
    exact aluUnary_writes setsPc_opInc operandCount_opInc (mod256_add_one _)
  · rw [exec, execDec]
    exact aluUnary_writes setsPc_opDec operandCount_opDec (mod256_sub_one _)
  · rw [getReg_of_exec_not hu, getReg_of_exec_not ht, complement_complement]
  · exact exec_outside_a_of_mem (by simp [regOperandA]) h s

/-! ## AND, OR and XOR -/

/-- Settles O27: the three results as bytes, and the index faults in the order of R234. -/
theorem bitwiseResults : Obligations.BitwiseResults := by
  refine ⟨fun i j s => ⟨?_, ?_, ?_⟩, fun a b s h => ?_, fun i b s h => ?_⟩
  · rw [exec, execAnd]
    exact aluBinary_writes setsPc_opAnd operandCount_opAnd (mod256_and _ _)
  · rw [exec, execOr]
    exact aluBinary_writes setsPc_opOr operandCount_opOr (mod256_or _ _)
  · rw [exec, execXor]
    exact aluBinary_writes setsPc_opXor operandCount_opXor (mod256_xor _ _)
  · exact exec_outside_a_of_mem (by simp [regOperandA]) h s
  · exact exec_outside_b_of_mem i (by simp [regOperandA]) (by simp [regOperandB]) h s

/-! ## SHL and SHR -/

/-- Settles O28: the two results, 0 from an amount of 8 on, and the index faults in the order of R234. -/
theorem shiftResults : Obligations.ShiftResults := by
  refine ⟨fun i j s => ⟨?_, ?_⟩, fun a b s h => ?_, fun i b s h => ?_⟩
  · rw [exec, execShl]
    exact aluBinary_writes setsPc_opShl operandCount_opShl (mod256_shl_eq_ite _ _)
  · rw [exec, execShr]
    exact aluBinary_writes setsPc_opShr operandCount_opShr (mod256_shr_eq_ite _ _)
  · exact exec_outside_a_of_mem (by simp [regOperandA]) h s
  · exact exec_outside_b_of_mem i (by simp [regOperandA]) (by simp [regOperandB]) h s

/-! ## CMP, and the conditional jumps after it -/

/-- The flags of R125 are the three unsigned relations of the compared bytes. -/
theorem compareFlags_eq (p q : Byte) : compareFlags p q =
    { e := decide (p.toNat = q.toNat), l := decide (p.toNat < q.toNat), g := decide (q.toNat < p.toNat) } := by
  rcases Nat.lt_trichotomy p.toNat q.toNat with h | h | h
  · have hne : p ≠ q := by rintro rfl; omega
    simp [compareFlags, hne, h, Nat.ne_of_lt h, Nat.lt_asymm h]
  · cases BitVec.eq_of_toNat_eq h
    simp [compareFlags]
  · have hne : p ≠ q := by rintro rfl; omega
    simp [compareFlags, hne, h, Nat.ne_of_gt h, Nat.lt_asymm h]

theorem exec_cmp (i j : Fin 8) (s : State) : exec (.cmp (regByte i) (regByte j)) s =
    .next (setPc (s.pc + 3#8) (setFl (compareFlags (getReg i s) (getReg j s)) s)) := by
  rw [exec, execCmp_ok, advance_three_bytes setsPc_opCmp operandCount_opCmp, setFl_pc]

/-- Settles O29: the flags as relations, and the index faults in the order of R234. -/
theorem cmpResult : Obligations.CmpResult := by
  refine ⟨fun i j s => ?_, fun a b s h => exec_outside_a rfl h s, fun i b s h => exec_outside_b rfl rfl h s⟩
  rw [exec_cmp, compareFlags_eq]

theorem condEq_compareFlags (p q : Byte) : condEq (compareFlags p q) = decide (p.toNat = q.toNat) := by
  rw [compareFlags_eq, condEq]

theorem condNe_compareFlags (p q : Byte) : condNe (compareFlags p q) = decide (p.toNat ≠ q.toNat) := by
  rw [compareFlags_eq, condNe, decide_not]

theorem condLe_compareFlags (p q : Byte) : condLe (compareFlags p q) = decide (p.toNat ≤ q.toNat) := by
  simp [compareFlags_eq, condLe, Nat.le_iff_lt_or_eq]

theorem condGt_compareFlags (p q : Byte) : condGt (compareFlags p q) = decide (q.toNat < p.toNat) := by
  rw [compareFlags_eq, condGt]

theorem condLt_compareFlags (p q : Byte) : condLt (compareFlags p q) = decide (p.toNat < q.toNat) := by
  rw [compareFlags_eq, condLt]

theorem condGe_compareFlags (p q : Byte) : condGe (compareFlags p q) = decide (q.toNat ≤ p.toNat) := by
  simp [compareFlags_eq, condGe, Nat.le_iff_lt_or_eq, eq_comm]

theorem condJump_writes {ir : Byte} (hs : setsPc ir = true) (cond : Flags → Bool) (k : Fin 8) (s : State) :
    condJump ir cond (regByte k) s = .next (setPc (if cond s.fl then getReg k s else s.pc + 2#8) s) := by
  rw [condJump_ok, advance_none hs, pcAfterTwoBytes_eq]

/-- A jump on a condition that is the relation rel of the compared bytes, in the state that CMP leaves. -/
theorem condJump_after_cmp {ir : Byte} (hs : setsPc ir = true) {cond : Flags → Bool} {rel : Nat → Nat → Bool}
    (hrel : ∀ p q, cond (compareFlags p q) = rel p.toNat q.toNat) (k : Fin 8) (p q : Byte) (s : State) :
    ∃ u, condJump ir cond (regByte k) (setPc (s.pc + 3#8) (setFl (compareFlags p q) s)) = .next u ∧
      u.pc = if rel p.toNat q.toNat then getReg k s else s.pc + 5#8 := by
  refine ⟨_, condJump_writes hs .., ?_⟩
  have hpc : s.pc + 3#8 + 2#8 = s.pc + 5#8 := BitVec.add_assoc ..
  rw [setPc_pc, setPc_pc, setPc_fl, setFl_fl, getReg_setPc, getReg_setFl, hrel, hpc]

/-- Settles O47: each jump's condition, read off CMP's flags, is its relation of the compared bytes. -/
theorem jumpsFollowUnsignedCompare : Obligations.JumpsFollowUnsignedCompare := by
  refine fun i j k s => ⟨_, exec_cmp i j s, fun ins rel hmem => ?_⟩
  obtain ⟨ir, cond, hset, hexec, hrel⟩ : ∃ ir cond, setsPc ir = true ∧
      (∀ t, exec ins t = condJump ir cond (regByte k) t) ∧
      ∀ p q, cond (compareFlags p q) = rel p.toNat q.toNat := by
    simp only [List.mem_cons, List.not_mem_nil, or_false, Prod.mk.injEq] at hmem
    obtain ⟨rfl, rfl⟩ | ⟨rfl, rfl⟩ | ⟨rfl, rfl⟩ | ⟨rfl, rfl⟩ | ⟨rfl, rfl⟩ | ⟨rfl, rfl⟩ := hmem
    · exact ⟨opJeq, condEq, setsPc_opJeq, fun _ => rfl, condEq_compareFlags⟩
    · exact ⟨opJne, condNe, setsPc_opJne, fun _ => rfl, condNe_compareFlags⟩
    · exact ⟨opJle, condLe, setsPc_opJle, fun _ => rfl, condLe_compareFlags⟩
    · exact ⟨opJgt, condGt, setsPc_opJgt, fun _ => rfl, condGt_compareFlags⟩
    · exact ⟨opJlt, condLt, setsPc_opJlt, fun _ => rfl, condLt_compareFlags⟩
    · exact ⟨opJge, condGe, setsPc_opJge, fun _ => rfl, condGe_compareFlags⟩
  rw [hexec]
  exact condJump_after_cmp hset hrel k _ _ s

end Sys2Proof.Machine

/-! # Proofs about LDI, PRN and HLT (`41_load_output_halt.md`)

Each rule is followed by the engine's advance over the instruction's own bytes, 3, 2 and 1 of them. The index faults are
`instrFault`'s, as everywhere. -/

namespace Sys2Proof.Machine

theorem exec_hlt (s : State) : exec .hlt s = .next (setPc (s.pc + 1#8) (setStatus .halted s)) := by
  rw [exec, execHlt, complete_ok, advance_bytes setsPc_opHlt operandCount_opHlt, setStatus_pc]

/-- Settles O31: the state that HLT leaves is halted and has no step (R200), and at 254 and 255 the fetch faults whatever
the byte there is. -/
theorem hltResult : Obligations.HltResult := by
  refine ⟨fun s => ⟨exec_hlt s, fun t h => ?_⟩, fun s hr hpc _ => step_top hr hpc⟩
  have hhalted : t.status = .halted := by
    cases (exec_hlt s).symm.trans h
    rw [setPc_status, setStatus_status]
  exact step_halted hhalted

theorem exec_ldi (i : Fin 8) (imm : Byte) (s : State) :
    exec (.ldi (regByte i) imm) s = .next (setPc (s.pc + 3#8) (setReg i imm s)) := by
  rw [exec, execLdi_ok, advance_three_bytes setsPc_opLdi operandCount_opLdi, setReg_pc]

/-- Settles O33: the register receives the immediate itself, and SP is R7 before and after the write (R26). -/
theorem ldiResult : Obligations.LdiResult := by
  refine ⟨exec_ldi, fun imm s t hp h => ?_, fun a imm s h => exec_outside_a rfl h s⟩
  cases (exec_ldi 7 imm s).symm.trans h
  have hp' : (setReg 7 imm s).params.spAliasesR7 = true := by rwa [setReg_params]
  rw [getSp_setPc, getSp_alias hp', getReg_setReg_same]

theorem exec_prn (i : Fin 8) (s : State) :
    exec (.prn (regByte i)) s = .next (setPc (s.pc + 2#8) (output (getReg i s) s)) := by
  rw [exec, execPrn_ok, advance_two_bytes setsPc_opPrn operandCount_opPrn, output_pc]

/-- Settles O34: the two fields that PRN writes are those of `output` and `setPc`; a fault writes Status alone. -/
theorem prnResult : Obligations.PrnResult :=
  ⟨exec_prn, fun _ s h => exec_outside_a rfl h s⟩

end Sys2Proof.Machine

/-! # Proofs about the stack (`42_stack.md`)

First the full next state of PUSH and of POP, and from it what they do on a register that is not R7: such an operand and
SP are two cells under both values of `SP_ALIASES_R7`, so the order inside the rules (D9) does not show. -/

namespace Sys2Proof.Machine

/-! ## The next states -/

theorem exec_push (i : Fin 8) (s : State) : exec (.push (regByte i)) s = .next (setPc (s.pc + 2#8)
    (setMem (getSp s - 1#8).toNat (getReg i (setSp (getSp s - 1#8) s)) (setSp (getSp s - 1#8) s))) := by
  rw [exec, execPush_ok, advance_two_bytes setsPc_opPush operandCount_opPush, setMem_pc, setSp_pc, pushAddress_eq,
    decrementedSp_eq]

theorem exec_pop (i : Fin 8) (s : State) : exec (.pop (regByte i)) s = .next (setPc (s.pc + 2#8)
    (setSp (getSp (setReg i (s.mem.read (getSp s).toNat) s) + 1#8) (setReg i (s.mem.read (getSp s).toNat) s))) := by
  rw [exec, execPop_ok, advance_two_bytes setsPc_opPop operandCount_opPop, setSp_pc, setReg_pc, incrementedSp_eq]

theorem exec_push_effect (i : Fin 8) (s : State) : ∃ t, exec (.push (regByte i)) s = .next t ∧
    getSp t = getSp s - 1#8 ∧
    t.mem = s.mem.write (getSp s - 1#8).toNat (getReg i (setSp (getSp s - 1#8) s)) ∧
    ∀ j, j ≠ 7 → getReg j t = getReg j s := by
  refine ⟨_, exec_push i s, ?_, ?_, fun j hj => ?_⟩
  · rw [getSp_setPc, getSp_setMem, getSp_setSp]
  · rw [setPc_mem, setMem_mem, setSp_mem]
  · rw [getReg_setPc, getReg_setMem, getReg_setSp_other fun _ => hj]

/-! ## On a register other than R7 -/

theorem exec_push_of_ne_seven {i : Fin 8} (hi : i ≠ 7) (s : State) : ∃ t, exec (.push (regByte i)) s = .next t ∧
    getSp t = getSp s - 1#8 ∧ t.mem = s.mem.write (getSp s - 1#8).toNat (getReg i s) ∧
    ∀ j, j ≠ 7 → getReg j t = getReg j s := by
  obtain ⟨t, ht, hsp, hmem, hreg⟩ := exec_push_effect i s
  rw [getReg_setSp_other fun _ => hi] at hmem
  exact ⟨t, ht, hsp, hmem, hreg⟩

theorem exec_pop_of_ne_seven {i : Fin 8} (hi : i ≠ 7) (s : State) : ∃ t, exec (.pop (regByte i)) s = .next t ∧
    getReg i t = s.mem.read (getSp s).toNat ∧ getSp t = getSp s + 1#8 ∧ t.mem = s.mem ∧
    ∀ j, j ≠ 7 → j ≠ i → getReg j t = getReg j s := by
  refine ⟨_, exec_pop i s, ?_, ?_, ?_, fun j hj hji => ?_⟩
  · rw [getReg_setPc, getReg_setSp_other fun _ => hi, getReg_setReg_same]
  · rw [getSp_setPc, getSp_setSp, getSp_setReg_other fun _ => hi]
  · rw [setPc_mem, setSp_mem, setReg_mem]
  · rw [getReg_setPc, getReg_setSp_other fun _ => hj, getReg_setReg_other hji.symm]

/-- A POP finds at SP what the PUSH stored there. -/
theorem pop_restores_push {i : Fin 8} (hi : i ≠ 7) (s : State) : ∃ t, exec (.push (regByte i)) s = .next t ∧
    ∀ u : State, getSp u = getSp t → u.mem.read (getSp t).toNat = t.mem.read (getSp t).toNat →
      ∃ v, exec (.pop (regByte i)) u = .next v ∧ getReg i v = getReg i s ∧ getSp v = getSp s := by
  obtain ⟨t, ht, hsp, hmem, -⟩ := exec_push_of_ne_seven hi s
  refine ⟨t, ht, fun u hu hcell => ?_⟩
  obtain ⟨v, hv, hreg, hvsp, -, -⟩ := exec_pop_of_ne_seven hi u
  refine ⟨v, hv, ?_, ?_⟩
  · rw [hreg, hu, hcell, hmem, hsp, Memory.read_write_same]
  · rw [hvsp, hu, hsp, BitVec.sub_add_cancel]

/-- The second PUSH stores below the first and the first POP restores SP and stores nothing, so the second POP finds
what the first PUSH stored. -/
theorem pops_reverse_pushes {i j k l : Fin 8} (hi : i ≠ 7) (hj : j ≠ 7) (hk : k ≠ 7) (hl : l ≠ 7) (hkl : k ≠ l)
    (s : State) : ∃ s₁ s₂ s₃ t, exec (.push (regByte i)) s = .next s₁ ∧ exec (.push (regByte j)) s₁ = .next s₂ ∧
      exec (.pop (regByte k)) s₂ = .next s₃ ∧ exec (.pop (regByte l)) s₃ = .next t ∧
      getReg k t = getReg j s ∧ getReg l t = getReg i s ∧ getSp t = getSp s := by
  obtain ⟨s₁, h₁, hsp₁, hmem₁, hreg₁⟩ := exec_push_of_ne_seven hi s
  obtain ⟨s₂, h₂, hsp₂, hmem₂, -⟩ := exec_push_of_ne_seven hj s₁
  obtain ⟨s₃, h₃, hk₃, hsp₃, hmem₃, -⟩ := exec_pop_of_ne_seven hk s₂
  obtain ⟨t, h₄, hl₄, hsp₄, -, hreg₄⟩ := exec_pop_of_ne_seven hl s₃
  have hsp₃₁ : getSp s₃ = getSp s₁ := by rw [hsp₃, hsp₂, BitVec.sub_add_cancel]
  have hbelow : (getSp s₁ - 1#8).toNat ≠ (getSp s₁).toNat := by bv_omega
  refine ⟨s₁, s₂, s₃, t, h₁, h₂, h₃, h₄, ?_, ?_, ?_⟩
  · rw [hreg₄ k hk hkl, hk₃, hmem₂, hsp₂, Memory.read_write_same, hreg₁ j hj]
  · rw [hl₄, hmem₃, hsp₃₁, hmem₂, Memory.read_write_other hbelow, hmem₁, hsp₁, Memory.read_write_same]
  · rw [hsp₄, hsp₃₁, hsp₁, BitVec.sub_add_cancel]

/-- Settles O40: by what PUSH and POP do on a register that is not SP. -/
theorem pushPopIsLifo : Obligations.PushPopIsLifo :=
  ⟨fun _ s hi => pop_restores_push hi s, fun _ _ _ _ s hi hj hk hl _ hkl => pops_reverse_pushes hi hj hk hl hkl s⟩

/-- Settles O37: the next state with the advance over two bytes; an index fault is the instruction's first. -/
theorem pushResult : Obligations.PushResult :=
  ⟨exec_push, fun _ s h => exec_outside_a rfl h s⟩

/-- Settles O39: the next state with the advance over two bytes; an index fault is the instruction's first. -/
theorem popResult : Obligations.PopResult :=
  ⟨exec_pop, fun _ s h => exec_outside_a rfl h s⟩

/-! ## On R7 -/

/-- Settles O38: the two rules read and write SP and R7 in the written order (D9), and these are one cell or
two (D6). -/
theorem stackOperandR7 : Obligations.StackOperandR7 := by
  intro s t u ht hu
  obtain ⟨_, ht', hsp, hmem, -⟩ := exec_push_effect 7 s
  cases ht'.symm.trans ht
  cases (exec_pop 7 s).symm.trans hu
  have htop : t.mem.read (getSp t).toNat = getReg 7 (setSp (getSp s - 1#8) s) := by
    rw [hmem, hsp, Memory.read_write_same]
  refine ⟨hsp, fun hp => ⟨?_, ?_⟩, fun hp => ?_⟩
  · rw [htop, hsp, setSp_alias hp, getReg_setReg_same]
  · rw [getSp_setPc, getSp_setSp, getSp_alias (by rwa [setReg_params]), getReg_setReg_same]
  · have hcell : s.params.spAliasesR7 = true → (7 : Fin 8) ≠ 7 := by simp [hp]
    refine ⟨?_, ?_, ?_⟩
    · rw [htop, getReg_setSp_other hcell]
    · rw [getReg_setPc, getReg_setSp_other (by rwa [setReg_params]), getReg_setReg_same]
    · rw [getSp_setPc, getSp_setSp, getSp_setReg_other hcell]

end Sys2Proof.Machine

/-! # Proofs about control transfer (`43_control_transfer.md`)

Every control instruction writes PC itself and has no advance. The conditional jumps are one form, `condJump`, so each
is said by what its condition reads of FL. The index faults are `instrFault`'s, whether or not the jump is taken. -/

namespace Sys2Proof.Machine

/-! ## CALL and RET -/

theorem exec_call (i : Fin 8) (s : State) : exec (.call (regByte i)) s =
    .next (setPc (getReg i (setSp (getSp s - 1#8) s))
      (setMem (getSp s - 1#8).toNat (s.pc + 2#8) (setSp (getSp s - 1#8) s))) := by
  rw [exec, execCall_ok, advance_none setsPc_opCall, pushAddress_eq, decrementedSp_eq, pcAfterTwoBytes_eq]

theorem exec_ret (s : State) :
    exec .ret s = .next (setSp (getSp s + 1#8) (setPc (s.mem.read (getSp s).toNat) s)) := by
  rw [exec, execRet_ok, advance_none setsPc_opRet, incrementedSp_eq]

/-- Settles O43: the RET reads the cell in which the CALL stored the return address, and its increment of SP undoes the
CALL's decrement modulo 256. -/
theorem callReturnsToNextInstruction : Obligations.CallReturnsToNextInstruction := by
  intro i s
  refine ⟨_, exec_call i s, fun u hsp hcell => ⟨_, exec_ret u, ?_, ?_⟩⟩
  · rw [setSp_pc, setPc_pc, hsp, hcell, getSp_setPc, getSp_setMem, getSp_setSp, setPc_mem, setMem_mem,
      Memory.read_write_same]
  · rw [getSp_setSp, hsp, getSp_setPc, getSp_setMem, getSp_setSp, BitVec.sub_add_cancel]

/-- Settles O41: the next state has no advance; an index fault is the instruction's first. -/
theorem callResult : Obligations.CallResult :=
  ⟨exec_call, fun _ s h => exec_outside_a rfl h s⟩

/-- Settles O42: SP always names a byte of memory, so the read has no fault, and there is no advance. -/
theorem retResult : Obligations.RetResult := exec_ret

/-! ## JMP -/

theorem exec_jmp (i : Fin 8) (s : State) : exec (.jmp (regByte i)) s = .next (setPc (getReg i s) s) := by
  rw [exec, execJmp_ok, advance_none setsPc_opJmp]

theorem setPc_self (s : State) : setPc s.pc s = s := rfl

/-- A running core whose step leads to the same state runs forever. -/
theorem neverEnds_of_step_self {s : State} (hs : s.status = .running) (h : step s = .next s) : NeverEnds s :=
  fun n => ⟨s, runSteps_fixed h n, hs⟩

/-- Settles O44: a JMP to its own address writes the PC that stands there, so its step leads to the same state. -/
theorem jmpResult : Obligations.JmpResult := by
  refine ⟨exec_jmp, fun _ s h => exec_outside_a rfl h s, fun s i hs hpc hins hreg => ?_⟩
  have hself : step s = .next s := by
    rw [step_exec hs hpc, hins, exec_jmp, hreg, setPc_self]
  exact ⟨runSteps_fixed hself, neverEnds_of_step_self hs hself⟩

/-! ## The conditional jumps -/

theorem condNe_iff (f : Flags) : condNe f = true ↔ f.e = false := by simp [condNe]

theorem condLe_iff (f : Flags) : condLe f = true ↔ f.l = true ∨ f.e = true := by simp [condLe]

theorem condGe_iff (f : Flags) : condGe f = true ↔ f.g = true ∨ f.e = true := by simp [condGe]

/-- A conditional jump by a proposition P that says when its condition holds. -/
theorem condJump_of_iff {ir : Byte} (hset : setsPc ir = true) {cond : Flags → Bool} {P : Prop} [Decidable P]
    {s : State} (h : cond s.fl = true ↔ P) (i : Fin 8) :
    condJump ir cond (regByte i) s = .next (setPc (if P then getReg i s else s.pc + 2#8) s) := by
  simp only [condJump_writes hset, h]

/-- Settles O45: the conditions of JEQ and JNE read E alone. -/
theorem jeqJneResults : Obligations.JeqJneResults := by
  refine ⟨fun i s => ⟨?_, ?_⟩, fun a s h => exec_outside_a_of_mem (by simp [regOperandA]) h s⟩
  · exact condJump_of_iff setsPc_opJeq Iff.rfl i
  · exact condJump_of_iff setsPc_opJne (condNe_iff s.fl) i

/-! ## The optional jumps' opcodes -/

/-- The optional jumps have opcodes of their own: none is in the part of the dispatch table that every core has. -/
theorem extraDispatchTable_notBase :
    ∀ ir ∈ extraDispatchTable.map Prod.fst, (baseDispatchTable.lookup ir).isSome = false := by decide

/-- Without `HAS_EXTRA_JCC`, the opcode of an optional jump is an unknown one (R181). -/
theorem decode_extra_absent {p : Params} (hp : p.hasExtraJcc = false) {ir : Byte}
    (hir : ir ∈ extraDispatchTable.map Prod.fst) (a b : Byte) : decode p ir a b = .unknownNonAlu ir := by
  have halu : isAlu ir = false :=
    dispatchTable_notAlu ir (by rw [List.map_append]; exact List.mem_append_right _ hir)
  have hop : isDispatchOpcode p ir = false := by
    rw [isDispatchOpcode, dispatchTable_base hp, extraDispatchTable_notBase ir hir]
  exact decode_unknownNonAlu (by rw [Instr.wellFormed, halu, hop]; rfl) a b

/-- Settles O46: each condition reads its own flags, and the three optional opcodes are in the table or unknown. -/
theorem orderedJumpResults : Obligations.OrderedJumpResults := by
  refine ⟨fun i s => ⟨?_, ?_, ?_, ?_⟩, fun a s h => exec_outside_a_of_mem (by simp [regOperandA]) h s,
    fun p a b => ⟨fun hp => ?_, fun hp => ?_⟩⟩
  · exact condJump_of_iff setsPc_opJle (condLe_iff s.fl) i
  · exact condJump_of_iff setsPc_opJgt Iff.rfl i
  · exact condJump_of_iff setsPc_opJlt Iff.rfl i
  · exact condJump_of_iff setsPc_opJge (condGe_iff s.fl) i
  · exact ⟨decode_opJgt hp a b, decode_opJlt hp a b, decode_opJge hp a b⟩
  · exact ⟨decode_extra_absent hp (by decide) a b, decode_extra_absent hp (by decide) a b,
      decode_extra_absent hp (by decide) a b⟩

end Sys2Proof.Machine

/-! # Proofs about the execution engine (`44_execution_engine.md`)

First how runs compose and that a run has one end; then the unknown non-ALU opcodes; last a simulation: the policy
`Skip` imitates every execution that does not raise `IllegalInstruction`. -/

namespace Sys2Proof.Machine

/-! ## Steps and runs -/

/-- Settles O2: the decoder on the three fetched bytes reads the instruction at PC. -/
theorem stepRunsDecodedInstruction : Obligations.StepRunsDecodedInstruction := by
  intro s i hs hpc hd
  have hi : instrAtPc s = i := Except.ok.inj hd
  rw [step_exec hs hpc, hi]

/-- Settles O4: `step` looks at Status first. -/
theorem noStepAfterTheEnd : Obligations.NoStepAfterTheEnd := fun _ =>
  ⟨step_halted, fun _ => step_faulted⟩

/-- A run of m + n steps is a run of m steps and then one of n. -/
theorem runSteps_add {m : Nat} {s u : State} (h : runSteps m s = .next u) (n : Nat) :
    runSteps (m + n) s = runSteps n u := by
  induction m generalizing s with
  | zero => cases h; rw [Nat.zero_add]
  | succ m ih =>
    obtain ⟨v, hv, hm⟩ := step_of_runSteps_succ h
    rw [Nat.succ_add, runSteps_succ _ hv, ih hm]

/-- From a state that does not run, only the run of no steps has an end (R200). -/
theorem runSteps_of_not_running {n : Nat} {s t : State} (hs : s.status ≠ .running) (h : runSteps n s = .next t) :
    t = s := by
  cases n with
  | zero => cases h; rfl
  | succ n =>
    obtain ⟨u, hu, -⟩ := step_of_runSteps_succ h
    exact absurd (step_cases hu).1 hs

/-- A run has one end, whatever the numbers of steps it is sought at (R210). -/
theorem runSteps_end_unique {m n : Nat} {s t u : State} (ht : runSteps m s = .next t) (hu : runSteps n s = .next u)
    (htEnd : t.status ≠ .running) (huEnd : u.status ≠ .running) : t = u := by
  rcases Nat.le_total m n with h | h <;> obtain ⟨d, rfl⟩ := Nat.exists_eq_add_of_le h
  · rw [runSteps_add ht] at hu
    exact (runSteps_of_not_running htEnd hu).symm
  · rw [runSteps_add hu] at ht
    exact runSteps_of_not_running huEnd ht

theorem not_haltsIn_of_faults {n : Nat} {s u : State} {k : FaultKind} (hu : runSteps n s = .next u)
    (hk : u.status = .faulted k) (t : State) : ¬ HaltsIn s t := by
  rintro ⟨m, ht, hhalt⟩
  have htu := runSteps_end_unique ht hu (by simp [hhalt]) (by simp [hk])
  rw [htu, hk] at hhalt
  cases hhalt

/-! ## The unknown non-ALU opcodes -/

theorem operandCount_eq (ir : Byte) : operandCount ir = ir.toNat / 64 := by
  rw [operandCount, BitVec.toNat_ushiftRight, Nat.shiftRight_eq_div_pow]

/-- Settles O18: the engine's advance by the opcode's bits, or the fault, as the parameter says. -/
theorem unknownNonAluFollowsPolicy : Obligations.UnknownNonAluFollowsPolicy := by
  refine fun ir s => ⟨fun hp hset => ?_, fun hp hset => ?_, fun hp => execUnknownNonAlu_fault hp ir⟩
  · rw [exec, execUnknownNonAlu_skip hp, advance_bytes hset (operandCount_eq ir)]
  · rw [exec, execUnknownNonAlu_skip hp, advance_none hset]

/-- An opcode with IR[5] = 0 that no core has in its dispatch table decodes as unknown under all parameters (R79). -/
theorem decode_absent {ir : Byte} (halu : isAlu ir = false)
    (hir : ir ∉ (baseDispatchTable ++ extraDispatchTable).map Prod.fst) (p : Params) (a b : Byte) :
    decode p ir a b = .unknownNonAlu ir := by
  have hop : isDispatchOpcode p ir = false := by
    rw [isDispatchOpcode, isSome_lookup_eq_decide, decide_eq_false_iff_not]
    exact fun h => hir (((dispatchTable_sublist p).map Prod.fst).subset h)
  exact decode_unknownNonAlu (by rw [Instr.wellFormed, halu, hop]; rfl) a b

/-- Of the bytes in a class q, those that a table lacks are all but the table's own opcodes in q. -/
theorem countP_not_listed (q : Byte → Bool) {rows : List DecodeRow} (h : (rows.map Prod.fst).Nodup) :
    allBytes.countP (fun ir => q ir && !(rows.lookup ir).isSome) =
      allBytes.countP q - ((rows.map Prod.fst).filter q).length := by
  have hlisted : allBytes.countP (fun ir => q ir && (rows.lookup ir).isSome) =
      ((rows.map Prod.fst).filter q).length := by
    rw [← countP_mem_allBytes (h.filter q)]
    refine List.countP_congr fun ir _ => ?_
    rw [isSome_lookup_eq_decide]
    simp [and_comm]
  have hsplit := List.countP_eq_countP_filter_add allBytes q fun ir => (rows.lookup ir).isSome
  simp only [List.countP_filter, hlisted] at hsplit
  omega

/-- A quarter of the bytes has IR[5] = 0 and IR[4] = 1. -/
theorem countP_setsPc_allBytes : allBytes.countP (fun ir => !isAlu ir && setsPc ir) = 64 := by decide +kernel

/-- The control instructions of the table: CALL, RET, JMP, JEQ, JNE and JLE, and the optional three (R76, R181). -/
theorem length_setsPc_dispatchTable (p : Params) :
    (((dispatchTable p).map Prod.fst).filter fun ir => !isAlu ir && setsPc ir).length =
      if p.hasExtraJcc then 9 else 6 := by
  unfold dispatchTable
  split <;> decide

theorem countP_unknownSetsPc (p : Params) :
    allBytes.countP (fun ir => !isAlu ir && setsPc ir && !isDispatchOpcode p ir) =
      if p.hasExtraJcc then 55 else 58 := by
  have hdistinct := opcodes_distinct
  rw [List.map_append, List.pairwise_append] at hdistinct
  obtain ⟨-, hdispatch, -⟩ := hdistinct
  have hcount := countP_not_listed (fun ir => !isAlu ir && setsPc ir)
    (hdispatch.sublist ((dispatchTable_sublist p).map Prod.fst))
  rw [countP_setsPc_allBytes, length_setsPc_dispatchTable] at hcount
  refine hcount.trans ?_
  split <;> rfl

/-- INT and IRET, which the core does not have (R80), have opcodes with IR[5] = 0 and IR[4] = 1 outside the table. -/
theorem int_iret_absent : ∀ ir ∈ [0b01010010#8, 0b00010011#8],
    isAlu ir = false ∧ setsPc ir = true ∧ ir ∉ (baseDispatchTable ++ extraDispatchTable).map Prod.fst := by decide

theorem extraDispatchTable_setsPc : ∀ ir ∈ extraDispatchTable.map Prod.fst, setsPc ir = true := by decide

/-- Settles O19: without the advance the step leads to the same state; 6 or 9 of the 64 opcodes with IR[5] = 0 and
IR[4] = 1 are in the table. -/
theorem unknownSetsPcOpcodeHangs : Obligations.UnknownSetsPcOpcodeHangs := by
  refine ⟨fun s ir hs hp hpc hi hset => ?_, fun p => ⟨countP_unknownSetsPc p, fun ir hir a b => ?_,
    fun hx ir hir a b => ⟨extraDispatchTable_setsPc ir hir, decode_extra_absent hx hir a b⟩⟩⟩
  · have hself : step s = .next s := by
      rw [step_exec hs hpc, hi, exec, execUnknownNonAlu_skip hp, advance_none hset]
    exact ⟨runSteps_fixed hself, neverEnds_of_step_self hs hself⟩
  · obtain ⟨halu, hset, hir⟩ := int_iret_absent ir hir
    exact ⟨hset, decode_absent halu hir p a b⟩

/-! ## Running off the end of a program -/

/-- A zero byte is an unknown non-ALU opcode on every core (R212). -/
theorem decode_zero (p : Params) (a b : Byte) : decode p 0#8 a b = .unknownNonAlu 0#8 :=
  decode_absent (by decide) (by decide) p a b

theorem step_zero {s : State} (hs : s.status = .running) (hpc : s.pc.toNat ≤ 253)
    (hz : s.mem.read s.pc.toNat = 0#8) : step s = exec (.unknownNonAlu 0#8) s := by
  rw [step_exec hs hpc, instrAtPc, hz, decode_zero]

theorem step_zero_skip {s : State} (hs : s.status = .running) (hp : s.params.unknownPolicy = .skip)
    (hpc : s.pc.toNat ≤ 253) (hz : s.mem.read s.pc.toNat = 0#8) : step s = .next (setPc (s.pc + 1#8) s) := by
  rw [step_zero hs hpc hz, exec, execUnknownNonAlu_skip hp, advance_bytes (n := 0) (by decide) (by decide)]

theorem step_zero_fault {s : State} (hs : s.status = .running) (hp : s.params.unknownPolicy = .fault)
    (hpc : s.pc.toNat ≤ 253) (hz : s.mem.read s.pc.toNat = 0#8) :
    step s = .next (setStatus (.faulted (.illegalInstruction 0#8)) s) := by
  rw [step_zero hs hpc hz, exec, execUnknownNonAlu_fault hp]

/-- Under `Skip` PC runs through the zeros up to 254, one address per step. -/
theorem runSteps_zeros {s : State} (hs : s.status = .running) (hp : s.params.unknownPolicy = .skip)
    (hz : ∀ a, s.pc.toNat ≤ a → a < 256 → s.mem.read a = 0#8) {n : Nat} (hn : s.pc.toNat + n ≤ 254) :
    runSteps n s = .next (setPc (s.pc + BitVec.ofNat 8 n) s) := by
  induction n with
  | zero => simp [runSteps, setPc_self]
  | succ n ih =>
    have hpc : (s.pc + BitVec.ofNat 8 n).toNat = s.pc.toNat + n := by
      rw [BitVec.toNat_add, BitVec.toNat_ofNat]; omega
    have hstep : step (setPc (s.pc + BitVec.ofNat 8 n) s) = .next (setPc (s.pc + BitVec.ofNat 8 n + 1#8) s) :=
      step_zero_skip (by simpa) (by simpa) (by rw [setPc_pc]; omega) (by
        rw [setPc_pc, setPc_mem, hpc]; exact hz _ (by omega) (by omega))
    rw [runSteps_add (ih (by omega)), runSteps_succ 0 hstep, BitVec.ofNat_add, BitVec.add_assoc, runSteps]

/-- Settles O20: through the zeros to the fetch fault at 254, or the fault at the first zero; either fault is the run's
one end. -/
theorem runningOffTheEndFaults : Obligations.RunningOffTheEndFaults := by
  intro s hs hpc hz
  have hskip (hp : s.params.unknownPolicy = .skip) : runSteps (255 - s.pc.toNat) s =
      .next (setStatus (.faulted (.memoryBounds 256)) (setPc 254#8 s)) := by
    have hrun := runSteps_zeros hs hp hz (n := 254 - s.pc.toNat) (by omega)
    have htop : s.pc + BitVec.ofNat 8 (254 - s.pc.toNat) = 254#8 := by
      apply BitVec.eq_of_toNat_eq
      rw [BitVec.toNat_add, BitVec.toNat_ofNat, BitVec.toNat_ofNat]; omega
    rw [htop] at hrun
    rw [show 255 - s.pc.toNat = 254 - s.pc.toNat + 1 by omega, runSteps_add hrun,
      runSteps_succ 0 (step_top (s := setPc 254#8 s) hs (Nat.le_refl 254)), runSteps]
  have hfault (hp : s.params.unknownPolicy = .fault) (hpc : s.pc.toNat ≤ 253) :=
    step_zero_fault hs hp hpc (hz _ (Nat.le_refl _) (by omega))
  refine ⟨fun hp => ⟨fun n hn => runSteps_zeros hs hp hz (by omega), hskip hp⟩, hfault, ?_⟩
  cases hp : s.params.unknownPolicy with
  | skip => exact not_haltsIn_of_faults (hskip hp) rfl
  | fault =>
    by_cases htop : 254 ≤ s.pc.toNat
    · exact not_haltsIn_of_faults (runSteps_succ 0 (step_top hs htop)) rfl
    · exact not_haltsIn_of_faults (runSteps_succ 0 (hfault hp (by omega))) rfl

/-! ## A run under `Skip` imitates one under `Fault`

Only the meaning of the unknown non-ALU opcodes reads the policy. So every other rule commutes with changing it: the
lemmas go through the rules statement by statement, as their do-blocks are written. -/

/-- The same state under UNKNOWN_OPCODE_POLICY = `Skip`. -/
def underSkip (s : State) : State := { s with params := { s.params with unknownPolicy := .skip } }

theorem underSkip_policy (s : State) : (underSkip s).params.unknownPolicy = .skip := rfl

theorem setSp_underSkip (v : Byte) (s : State) : setSp v (underSkip s) = underSkip (setSp v s) := by
  cases h : s.params.spAliasesR7
  · rw [setSp_cell h, setSp_cell (s := underSkip s) h]; rfl
  · rw [setSp_alias h, setSp_alias (s := underSkip s) h]; rfl

theorem advance_underSkip (ir : Byte) (s : State) : advance ir (underSkip s) = underSkip (advance ir s) := by
  cases h : setsPc ir
  · rw [advance_bytes h rfl, advance_bytes h rfl]; rfl
  · rw [advance_none h, advance_none h]

theorem writeReg_underSkip (a v : Byte) (s : State) :
    writeReg a v (underSkip s) = (writeReg a v s).map underSkip := by
  unfold writeReg
  split <;> rfl

theorem memWrite_underSkip (addr : Nat) (v : Byte) (s : State) :
    memWrite addr v (underSkip s) = (memWrite addr v s).map underSkip := by
  unfold memWrite
  split <;> rfl

/-- A statement that reads a value, the same under both policies. -/
theorem bind_underSkip {α : Type} (r : Except FaultKind α) {f g : α → Except FaultKind State}
    (h : ∀ x, g x = (f x).map underSkip) : (r >>= g) = (r >>= f).map underSkip := by
  cases r with
  | error k => rfl
  | ok x => exact h x

/-- A statement that makes a state. -/
theorem bind_state_underSkip {r r' : Except FaultKind State} (hr : r' = r.map underSkip)
    {f g : State → Except FaultKind State} (h : ∀ u, g (underSkip u) = (f u).map underSkip) :
    (r' >>= g) = (r >>= f).map underSkip := by
  subst hr
  cases r with
  | error k => rfl
  | ok u => exact h u

/-- `SkipImitates f s`: what the meaning f makes of s, it makes of s under `Skip`, but for the parameter. -/
def SkipImitates (f : State → Host.Outcome State Fault Refusal) (s : State) : Prop :=
  ∀ t, f s = .next t → f (underSkip s) = .next (underSkip t)

/-- A meaning is imitated where its rule commutes with the change of policy. -/
theorem complete_underSkip (ir : Byte) {s : State} {r : State → Except FaultKind State}
    (h : r (underSkip s) = (r s).map underSkip) : SkipImitates (fun u => complete ir u (r u)) s := by
  intro t ht
  simp only [h]
  cases hr : r s with
  | error k => simp only [hr, complete_error] at ht; cases ht; rfl
  | ok u =>
    simp only [hr, complete_ok] at ht
    cases ht
    exact congrArg _ (advance_underSkip ir u)

theorem aluBinary_underSkip (ir : Byte) (f : Nat → Nat → Int) (a b : Byte) (s : State) :
    SkipImitates (aluBinary ir f a b) s :=
  complete_underSkip ir <| bind_underSkip (readReg a s) fun _ => bind_underSkip (readReg b s) fun _ =>
    writeReg_underSkip a _ s

theorem aluUnary_underSkip (ir : Byte) (f : Nat → Int) (a : Byte) (s : State) :
    SkipImitates (aluUnary ir f a) s :=
  complete_underSkip ir <| bind_underSkip (readReg a s) fun _ => writeReg_underSkip a _ s

theorem aluDivide_underSkip (ir : Byte) (f : Nat → Nat → Nat) (a b : Byte) (s : State) :
    SkipImitates (aluDivide ir f a b) s :=
  complete_underSkip ir <| bind_underSkip (readReg a s) fun _ => bind_underSkip (readReg b s) fun y => by
    by_cases hy : y = 0#8
    · simp only [if_pos hy]; rfl
    · simp only [if_neg hy]; exact writeReg_underSkip a _ s

theorem execCmp_underSkip (a b : Byte) (s : State) : SkipImitates (execCmp a b) s :=
  complete_underSkip opCmp <| bind_underSkip (readReg a s) fun _ => bind_underSkip (readReg b s) fun _ => rfl

theorem execPrn_underSkip (a : Byte) (s : State) : SkipImitates (execPrn a) s :=
  complete_underSkip opPrn <| bind_underSkip (readReg a s) fun _ => rfl

theorem condJump_underSkip (ir : Byte) (cond : Flags → Bool) (a : Byte) (s : State) :
    SkipImitates (condJump ir cond a) s :=
  complete_underSkip ir <| bind_underSkip (checkIndex a) fun _ => bind_underSkip (readReg a s) fun _ => rfl

theorem execJmp_underSkip (a : Byte) (s : State) : SkipImitates (execJmp a) s :=
  complete_underSkip opJmp <| bind_underSkip (checkIndex a) fun _ => bind_underSkip (readReg a s) fun _ => rfl

theorem execPush_underSkip (a : Byte) (s : State) : SkipImitates (execPush a) s :=
  complete_underSkip opPush <| bind_underSkip (checkIndex a) fun _ => by
    rw [setSp_underSkip]
    exact bind_underSkip (readReg a _) fun v => memWrite_underSkip _ v _

theorem execPop_underSkip (a : Byte) (s : State) : SkipImitates (execPop a) s :=
  complete_underSkip opPop <| bind_underSkip (checkIndex a) fun _ => bind_underSkip (memRead (getSp s).toNat s) fun v =>
    bind_state_underSkip (writeReg_underSkip a v s) fun u => congrArg Except.ok (setSp_underSkip _ u)

theorem execCall_underSkip (a : Byte) (s : State) : SkipImitates (execCall a) s :=
  complete_underSkip opCall <| bind_underSkip (checkIndex a) fun _ => by
    rw [setSp_underSkip]
    exact bind_state_underSkip (memWrite_underSkip _ _ _) fun u => bind_underSkip (readReg a u) fun _ => rfl

theorem execRet_underSkip (s : State) : SkipImitates execRet s :=
  complete_underSkip opRet <| bind_underSkip (memRead (getSp s).toNat s) fun t =>
    congrArg Except.ok (setSp_underSkip _ (setPc t s))

/-- Under `Fault` an unknown non-ALU opcode raises its fault; under `Skip` nothing changes. -/
theorem execUnknownNonAlu_underSkip {ir : Byte} {s t : State} (h : execUnknownNonAlu ir s = .next t)
    (hk : ∀ k, t.status ≠ .faulted k) : execUnknownNonAlu ir (underSkip s) = .next (underSkip t) := by
  cases hp : s.params.unknownPolicy with
  | skip =>
    rw [execUnknownNonAlu_skip hp] at h
    cases h
    rw [execUnknownNonAlu_skip (underSkip_policy s), advance_underSkip]
  | fault =>
    rw [execUnknownNonAlu_fault hp] at h
    cases h
    exact absurd rfl (hk _)

/-- An execution that raises no fault is imitated under `Skip` (R207). -/
theorem exec_underSkip {i : Instr} {s t : State} (h : exec i s = .next t) (hk : ∀ k, t.status ≠ .faulted k) :
    exec i (underSkip s) = .next (underSkip t) := by
  cases i with
  | add a b => rw [exec, execAdd] at h ⊢; exact aluBinary_underSkip _ _ a b s t h
  | sub a b => rw [exec, execSub] at h ⊢; exact aluBinary_underSkip _ _ a b s t h
  | mul a b => rw [exec, execMul] at h ⊢; exact aluBinary_underSkip _ _ a b s t h
  | div a b => rw [exec, execDiv] at h ⊢; exact aluDivide_underSkip _ _ a b s t h
  | mod a b => rw [exec, execMod] at h ⊢; exact aluDivide_underSkip _ _ a b s t h
  | inc a => rw [exec, execInc] at h ⊢; exact aluUnary_underSkip _ _ a s t h
  | dec a => rw [exec, execDec] at h ⊢; exact aluUnary_underSkip _ _ a s t h
  | cmp a b => exact execCmp_underSkip a b s t h
  | and a b => rw [exec, execAnd] at h ⊢; exact aluBinary_underSkip _ _ a b s t h
  | not a => rw [exec, execNot] at h ⊢; exact aluUnary_underSkip _ _ a s t h
  | or a b => rw [exec, execOr] at h ⊢; exact aluBinary_underSkip _ _ a b s t h
  | xor a b => rw [exec, execXor] at h ⊢; exact aluBinary_underSkip _ _ a b s t h
  | shl a b => rw [exec, execShl] at h ⊢; exact aluBinary_underSkip _ _ a b s t h
  | shr a b => rw [exec, execShr] at h ⊢; exact aluBinary_underSkip _ _ a b s t h
  | hlt => exact complete_underSkip opHlt (r := fun u => .ok (setStatus .halted u)) rfl t h
  | ldi a imm => exact complete_underSkip opLdi (writeReg_underSkip a imm s) t h
  | prn a => exact execPrn_underSkip a s t h
  | push a => exact execPush_underSkip a s t h
  | pop a => exact execPop_underSkip a s t h
  | call a => exact execCall_underSkip a s t h
  | ret => exact execRet_underSkip s t h
  | jmp a => exact execJmp_underSkip a s t h
  | jeq a => rw [exec, execJeq] at h ⊢; exact condJump_underSkip _ _ a s t h
  | jne a => rw [exec, execJne] at h ⊢; exact condJump_underSkip _ _ a s t h
  | jle a => rw [exec, execJle] at h ⊢; exact condJump_underSkip _ _ a s t h
  | jgt a => rw [exec, execJgt] at h ⊢; exact condJump_underSkip _ _ a s t h
  | jlt a => rw [exec, execJlt] at h ⊢; exact condJump_underSkip _ _ a s t h
  | jge a => rw [exec, execJge] at h ⊢; exact condJump_underSkip _ _ a s t h
  | unknownAlu ir => cases h; exact absurd rfl (hk _)
  | unknownNonAlu ir => exact execUnknownNonAlu_underSkip h hk

/-- The policy plays no part in the fetch and the decoding. -/
theorem instrAtPc_underSkip (s : State) : instrAtPc (underSkip s) = instrAtPc s := rfl

theorem step_underSkip {s t : State} (h : step s = .next t) (hk : ∀ k, t.status ≠ .faulted k) :
    step (underSkip s) = .next (underSkip t) := by
  obtain ⟨hs, ⟨-, rfl⟩ | ⟨hpc, hx⟩⟩ := step_cases h
  · exact absurd rfl (hk _)
  · rw [step_exec (s := underSkip s) hs hpc, instrAtPc_underSkip, exec_underSkip hx hk]

/-- No state on the way to a halt has faulted. -/
theorem not_faulted_of_runSteps_halted {n : Nat} {s t : State} (h : runSteps n s = .next t) (ht : t.status = .halted)
    (k : FaultKind) : s.status ≠ .faulted k := by
  intro hk
  rw [runSteps_of_not_running (by simp [hk]) h, hk] at ht
  cases ht

theorem runSteps_underSkip {n : Nat} {s t : State} (h : runSteps n s = .next t) (ht : t.status = .halted) :
    runSteps n (underSkip s) = .next (underSkip t) := by
  induction n generalizing s with
  | zero => cases h; rfl
  | succ n ih =>
    obtain ⟨u, hu, hn⟩ := step_of_runSteps_succ h
    rw [runSteps_succ n (step_underSkip hu (not_faulted_of_runSteps_halted hn ht)), ih hn]

/-- Settles O21: by induction on the number of steps, each of which `Skip` imitates. -/
theorem haltUnderFaultIsHaltUnderSkip : Obligations.HaltUnderFaultIsHaltUnderSkip :=
  fun _ _ _ _ h ht => runSteps_underSkip h ht

end Sys2Proof.Machine

/-! # Proofs about the exceptions (`60_exceptions.md`)

A step raises `stepFault`'s fault, changing nothing else, or raises none. That a fault is precise follows: a faulted
next state is one that `stepFault` names. -/

namespace Sys2Proof.Machine

/-! ## The first fault of a step -/

theorem stepFault_top {s : State} (h : 254 ≤ s.pc.toNat) : stepFault s = some (.memoryBounds 256) := if_pos h

theorem stepFault_exec {s : State} (h : s.pc.toNat ≤ 253) : stepFault s = instrFault (instrAtPc s) s :=
  if_neg (by omega)

theorem step_of_stepFault {s : State} {k : FaultKind} (hs : s.status = .running) (h : stepFault s = some k) :
    step s = .next (setStatus (.faulted k) s) := by
  by_cases hpc : 254 ≤ s.pc.toNat
  · cases (stepFault_top hpc).symm.trans h
    exact step_top hs hpc
  · have hpc : s.pc.toNat ≤ 253 := by omega
    rw [step_exec hs hpc]
    exact exec_of_instrFault ((stepFault_exec hpc).symm.trans h)

/-- An instruction without a fault leaves a running core running or, when it is HLT, halted. -/
theorem Result.running_or_halted {i : Instr} {s t : State} (r : Result s i t) (hs : s.status = .running)
    (h : instrFault i s = none) : t.status = .running ∨ t.status = .halted := by
  cases r with
  | fault hf => cases hf.symm.trans h
  | done _ c =>
    rw [advance_status, c.status_eq, hs]
    split
    · exact .inr rfl
    · exact .inl rfl

theorem step_of_no_stepFault {s : State} (hs : s.status = .running) (h : stepFault s = none) :
    ∃ t, step s = .next t ∧ (t.status = .running ∨ t.status = .halted) := by
  by_cases hpc : 254 ≤ s.pc.toNat
  · cases (stepFault_top hpc).symm.trans h
  · have hpc : s.pc.toNat ≤ 253 := by omega
    obtain ⟨t, ht, r⟩ := exec_result (instrAtPc s) s
    exact ⟨t, (step_exec hs hpc).trans ht, r.running_or_halted hs ((stepFault_exec hpc).symm.trans h)⟩

/-- Settles O9: the fetch fault stands first, and an executed instruction ends by the order of `instrFault`. -/
theorem firstFaultIsRaised : Obligations.FirstFaultIsRaised := fun _ hs =>
  ⟨fun _ => step_of_stepFault hs, step_of_no_stepFault hs⟩

/-! ## Precise faults -/

/-- Settles O8: the recorded fault is the first of the step's faults, which changes Status alone. -/
theorem faultsArePrecise : Obligations.FaultsArePrecise := by
  intro s t k hs hstep hk
  cases hf : stepFault s with
  | none =>
    obtain ⟨u, hu, hend⟩ := step_of_no_stepFault hs hf
    cases hu.symm.trans hstep
    simp [hk] at hend
  | some first =>
    cases (step_of_stepFault hs hf).symm.trans hstep
    cases hk
    rfl

end Sys2Proof.Machine
